-- ==== Sys2Proof/Word.lean ====
section
/-! DEFINITION. The word types of the CHIP-8 CORE (00_scope.md R5, R7: every value is unsigned). -/

namespace Sys2Proof

/-- An 8-bit value: a general register, a timer, a memory cell (10_state.md R20). -/
abbrev Byte := BitVec 8

/-- A 16-bit value: `I`, `PC`, a stack entry, an opcode (10_state.md R20, 30_encoding.md R70). -/
abbrev Word := BitVec 16

/-- The immediate address `nnn` (30_encoding.md R71). -/
abbrev Addr12 := BitVec 12

/-- The 17-bit address field of the fault record (10_state.md R33). -/
abbrev Addr17 := BitVec 17

/-- The index of a general register: the field `x` or `y` of an opcode (10_state.md R21). -/
abbrev RegIdx := Fin 16

end Sys2Proof
end

