-- ==== Sys2Proof/Syntax.lean ====
section
/-! DEFINITION. The 35 instructions, one constructor per row of spec/opcode_table.json, in the table's order. -/

namespace Sys2Proof

/-- An instruction with its field values (30_encoding.md R71, R75 to R79). `n` is a row count 0 to 15 (R73). -/
inductive Instr where
  /-- `0nnn` `SYS addr` (R101) -/
  | sys (nnn : Addr12)
  /-- `00E0` `CLS` (R161) -/
  | cls
  /-- `00EE` `RET` (R102) -/
  | ret
  /-- `1nnn` `JP addr` (R103) -/
  | jp (nnn : Addr12)
  /-- `2nnn` `CALL addr` (R104) -/
  | call (nnn : Addr12)
  /-- `3xkk` `SE Vx, byte` (R105) -/
  | seByte (x : RegIdx) (kk : Byte)
  /-- `4xkk` `SNE Vx, byte` (R106) -/
  | sneByte (x : RegIdx) (kk : Byte)
  /-- `5xy0` `SE Vx, Vy` (R107) -/
  | seReg (x y : RegIdx)
  /-- `6xkk` `LD Vx, byte` (R111) -/
  | ldByte (x : RegIdx) (kk : Byte)
  /-- `7xkk` `ADD Vx, byte` (R112) -/
  | addByte (x : RegIdx) (kk : Byte)
  /-- `8xy0` `LD Vx, Vy` (R113) -/
  | ldReg (x y : RegIdx)
  /-- `8xy1` `OR Vx, Vy` (R114) -/
  | orReg (x y : RegIdx)
  /-- `8xy2` `AND Vx, Vy` (R115) -/
  | andReg (x y : RegIdx)
  /-- `8xy3` `XOR Vx, Vy` (R116) -/
  | xorReg (x y : RegIdx)
  /-- `8xy4` `ADD Vx, Vy` (R117) -/
  | addReg (x y : RegIdx)
  /-- `8xy5` `SUB Vx, Vy` (R118) -/
  | sub (x y : RegIdx)
  /-- `8xy6` `SHR Vx {, Vy}`; `y` is decoded and ignored (R119) -/
  | shr (x y : RegIdx)
  /-- `8xy7` `SUBN Vx, Vy` (R120) -/
  | subn (x y : RegIdx)
  /-- `8xyE` `SHL Vx {, Vy}`; `y` is decoded and ignored (R121) -/
  | shl (x y : RegIdx)
  /-- `9xy0` `SNE Vx, Vy` (R108) -/
  | sneReg (x y : RegIdx)
  /-- `Annn` `LD I, addr` (R131) -/
  | ldI (nnn : Addr12)
  /-- `Bnnn` `JP V0, addr` (R109) -/
  | jpV0 (nnn : Addr12)
  /-- `Cxkk` `RND Vx, byte` (R171) -/
  | rnd (x : RegIdx) (kk : Byte)
  /-- `Dxyn` `DRW Vx, Vy, n` (R162) -/
  | drw (x y : RegIdx) (n : Fin 16)
  /-- `Ex9E` `SKP Vx` (R151) -/
  | skp (x : RegIdx)
  /-- `ExA1` `SKNP Vx` (R152) -/
  | sknp (x : RegIdx)
  /-- `Fx07` `LD Vx, DT` (R141) -/
  | ldVxDt (x : RegIdx)
  /-- `Fx0A` `LD Vx, K` (R153) -/
  | ldVxK (x : RegIdx)
  /-- `Fx15` `LD DT, Vx` (R142) -/
  | ldDtVx (x : RegIdx)
  /-- `Fx18` `LD ST, Vx` (R143) -/
  | ldStVx (x : RegIdx)
  /-- `Fx1E` `ADD I, Vx` (R132) -/
  | addI (x : RegIdx)
  /-- `Fx29` `LD F, Vx` (R133) -/
  | ldF (x : RegIdx)
  /-- `Fx33` `LD B, Vx` (R134) -/
  | ldB (x : RegIdx)
  /-- `Fx55` `LD [I], Vx` (R135) -/
  | ldMemVx (x : RegIdx)
  /-- `Fx65` `LD Vx, [I]` (R136) -/
  | ldVxMem (x : RegIdx)
deriving DecidableEq, Repr

end Sys2Proof
end

