-- ==== Sys2Proof/Decode.lean ====
section
/-! DEFINITION. Decoding and encoding: the fields of an opcode (30_encoding.md R71), the opcode map (R74 to R80), the
encoder of the same map, and the table of opcode_table.json as rows of mask and match. -/

namespace Sys2Proof

/-! ## Fields (30_encoding.md R71) -/

/-- `n0 = op[15:12]`, the major opcode group. -/
def fieldN0 (op : Word) : BitVec 4 := op.extractLsb' 12 4

/-- `n3 = op[3:0]`, the sub-opcode of groups 5, 8 and 9. -/
def fieldN3 (op : Word) : BitVec 4 := op.extractLsb' 0 4

/-- `x = op[11:8]`, the first register operand. -/
def fieldX (op : Word) : RegIdx := (op.extractLsb' 8 4).toFin

/-- `y = op[7:4]`, the second register operand. -/
def fieldY (op : Word) : RegIdx := (op.extractLsb' 4 4).toFin

/-- `n = op[3:0]` read as the row count of `DRW`. -/
def fieldN (op : Word) : Fin 16 := (op.extractLsb' 0 4).toFin

/-- `kk = op[7:0]`, the immediate byte, and the sub-opcode of groups E and F. -/
def fieldKk (op : Word) : Byte := op.extractLsb' 0 8

/-- `nnn = op[11:0]`, the immediate address. -/
def fieldNnn (op : Word) : Addr12 := op.extractLsb' 0 12

/-! ## Decoding -/

/-- Why bytes are no instruction. Each of these words is `DecodeError` when executed (30_encoding.md R80, whose table
has one row for each of the last five names); `SYS` decodes, and its own meaning raises the fault (R101). -/
inductive Reject where
  /-- fewer than two bytes: no opcode (30_encoding.md R70) -/
  | truncated
  /-- `5xyN`, `N ≠ 0` -/
  | illegalGroup5
  /-- `8xyN`, `N` one of 8, 9, A, B, C, D, F -/
  | illegalGroup8
  /-- `9xyN`, `N ≠ 0` -/
  | illegalGroup9
  /-- `Exkk`, `kk` neither 9E nor A1 -/
  | illegalGroupE
  /-- `Fxkk`, `kk` none of the nine sub-opcodes -/
  | illegalGroupF
deriving DecidableEq, Repr

/-- Group 0, dispatched on `nnn` (30_encoding.md R75). -/
def decodeGroup0 (op : Word) : Instr :=
  if fieldNnn op = 0x0E0#12 then .cls
  else if fieldNnn op = 0x0EE#12 then .ret
  else .sys (fieldNnn op)

/-- Group 8, dispatched on `n3` (30_encoding.md R77). -/
def decodeGroup8 (op : Word) : Except Reject Instr :=
  if fieldN3 op = 0x0#4 then .ok (.ldReg (fieldX op) (fieldY op))
  else if fieldN3 op = 0x1#4 then .ok (.orReg (fieldX op) (fieldY op))
  else if fieldN3 op = 0x2#4 then .ok (.andReg (fieldX op) (fieldY op))
  else if fieldN3 op = 0x3#4 then .ok (.xorReg (fieldX op) (fieldY op))
  else if fieldN3 op = 0x4#4 then .ok (.addReg (fieldX op) (fieldY op))
  else if fieldN3 op = 0x5#4 then .ok (.sub (fieldX op) (fieldY op))
  else if fieldN3 op = 0x6#4 then .ok (.shr (fieldX op) (fieldY op))
  else if fieldN3 op = 0x7#4 then .ok (.subn (fieldX op) (fieldY op))
  else if fieldN3 op = 0xE#4 then .ok (.shl (fieldX op) (fieldY op))
  else .error .illegalGroup8

/-- Group E, dispatched on `kk` (30_encoding.md R78). -/
def decodeGroupE (op : Word) : Except Reject Instr :=
  if fieldKk op = 0x9E#8 then .ok (.skp (fieldX op))
  else if fieldKk op = 0xA1#8 then .ok (.sknp (fieldX op))
  else .error .illegalGroupE

/-- Group F, dispatched on `kk` (30_encoding.md R79). -/
def decodeGroupF (op : Word) : Except Reject Instr :=
  if fieldKk op = 0x07#8 then .ok (.ldVxDt (fieldX op))
  else if fieldKk op = 0x0A#8 then .ok (.ldVxK (fieldX op))
  else if fieldKk op = 0x15#8 then .ok (.ldDtVx (fieldX op))
  else if fieldKk op = 0x18#8 then .ok (.ldStVx (fieldX op))
  else if fieldKk op = 0x1E#8 then .ok (.addI (fieldX op))
  else if fieldKk op = 0x29#8 then .ok (.ldF (fieldX op))
  else if fieldKk op = 0x33#8 then .ok (.ldB (fieldX op))
  else if fieldKk op = 0x55#8 then .ok (.ldMemVx (fieldX op))
  else if fieldKk op = 0x65#8 then .ok (.ldVxMem (fieldX op))
  else .error .illegalGroupF

/-- `Decode(op)`: first on `n0`, then in groups 0, 5, 8, 9, E and F on the sub-opcode (30_encoding.md R74 to R79). -/
def decodeWord (op : Word) : Except Reject Instr :=
  match (fieldN0 op).toNat with
  | 0x0 => .ok (decodeGroup0 op)
  | 0x1 => .ok (.jp (fieldNnn op))
  | 0x2 => .ok (.call (fieldNnn op))
  | 0x3 => .ok (.seByte (fieldX op) (fieldKk op))
  | 0x4 => .ok (.sneByte (fieldX op) (fieldKk op))
  | 0x5 => if fieldN3 op = 0#4 then .ok (.seReg (fieldX op) (fieldY op)) else .error .illegalGroup5
  | 0x6 => .ok (.ldByte (fieldX op) (fieldKk op))
  | 0x7 => .ok (.addByte (fieldX op) (fieldKk op))
  | 0x8 => decodeGroup8 op
  | 0x9 => if fieldN3 op = 0#4 then .ok (.sneReg (fieldX op) (fieldY op)) else .error .illegalGroup9
  | 0xA => .ok (.ldI (fieldNnn op))
  | 0xB => .ok (.jpV0 (fieldNnn op))
  | 0xC => .ok (.rnd (fieldX op) (fieldKk op))
  | 0xD => .ok (.drw (fieldX op) (fieldY op) (fieldN op))
  | 0xE => decodeGroupE op
  | _ => decodeGroupF op

/-- An opcode from its two bytes, the byte of the lower address first: big-endian (20_memory.md R53). -/
def wordOfBytes (hi lo : Byte) : Word := hi ++ lo

/-- The byte of an opcode that lies at the lower address: `op[15:8]`. -/
def highByte (op : Word) : Byte := op.extractLsb' 8 8

/-- The byte of an opcode that lies at the higher address: `op[7:0]`. -/
def lowByte (op : Word) : Byte := op.extractLsb' 0 8

/-- Decode the instruction at the head of a list of bytes: always two bytes long (30_encoding.md R70). -/
def decode : List Byte → Except Reject (Instr × List Byte)
  | hi :: lo :: rest => (decodeWord (wordOfBytes hi lo)).map (fun i => (i, rest))
  | _ => .error .truncated

/-- The host's view of the decoder: an instruction of `nbits` bits whose bits are `w`, laid out as memory holds it. -/
def decodeTableWord (nbits w : Nat) : Option Instr :=
  let op : Word := BitVec.ofNat 16 (w % 2 ^ nbits)
  match decode [highByte op, lowByte op] with
  | .ok (i, _) => some i
  | .error _ => none

/-! ## Encoding: the formats of 30_encoding.md R72 -/

/-- A register index or row count as a nibble of the opcode. -/
def nibble (k : Fin 16) : BitVec 4 := BitVec.ofNat 4 k.val

/-- Format `NNN`. -/
def wordNnn (major : BitVec 4) (nnn : Addr12) : Word := major ++ nnn

/-- Format `XKK`; format `X` is this with the sub-opcode in `kk`. -/
def wordXkk (major : BitVec 4) (x : RegIdx) (kk : Byte) : Word := major ++ nibble x ++ kk

/-- Format `XYN`; format `XY` is this with the sub-opcode in `n`. -/
def wordXyn (major : BitVec 4) (x y : RegIdx) (n : BitVec 4) : Word :=
  major ++ nibble x ++ nibble y ++ n

/-- The word of an instruction (30_encoding.md R75 to R79). -/
def encode : Instr → Word
  | .sys nnn => wordNnn 0x0#4 nnn
  | .cls => 0x00E0#16
  | .ret => 0x00EE#16
  | .jp nnn => wordNnn 0x1#4 nnn
  | .call nnn => wordNnn 0x2#4 nnn
  | .seByte x kk => wordXkk 0x3#4 x kk
  | .sneByte x kk => wordXkk 0x4#4 x kk
  | .seReg x y => wordXyn 0x5#4 x y 0x0#4
  | .ldByte x kk => wordXkk 0x6#4 x kk
  | .addByte x kk => wordXkk 0x7#4 x kk
  | .ldReg x y => wordXyn 0x8#4 x y 0x0#4
  | .orReg x y => wordXyn 0x8#4 x y 0x1#4
  | .andReg x y => wordXyn 0x8#4 x y 0x2#4
  | .xorReg x y => wordXyn 0x8#4 x y 0x3#4
  | .addReg x y => wordXyn 0x8#4 x y 0x4#4
  | .sub x y => wordXyn 0x8#4 x y 0x5#4
  | .shr x y => wordXyn 0x8#4 x y 0x6#4
  | .subn x y => wordXyn 0x8#4 x y 0x7#4
  | .shl x y => wordXyn 0x8#4 x y 0xE#4
  | .sneReg x y => wordXyn 0x9#4 x y 0x0#4
  | .ldI nnn => wordNnn 0xA#4 nnn
  | .jpV0 nnn => wordNnn 0xB#4 nnn
  | .rnd x kk => wordXkk 0xC#4 x kk
  | .drw x y n => wordXyn 0xD#4 x y (nibble n)
  | .skp x => wordXkk 0xE#4 x 0x9E#8
  | .sknp x => wordXkk 0xE#4 x 0xA1#8
  | .ldVxDt x => wordXkk 0xF#4 x 0x07#8
  | .ldVxK x => wordXkk 0xF#4 x 0x0A#8
  | .ldDtVx x => wordXkk 0xF#4 x 0x15#8
  | .ldStVx x => wordXkk 0xF#4 x 0x18#8
  | .addI x => wordXkk 0xF#4 x 0x1E#8
  | .ldF x => wordXkk 0xF#4 x 0x29#8
  | .ldB x => wordXkk 0xF#4 x 0x33#8
  | .ldMemVx x => wordXkk 0xF#4 x 0x55#8
  | .ldVxMem x => wordXkk 0xF#4 x 0x65#8

/-! ## The table of opcode_table.json, an independent view of the map (30_encoding.md R74) -/

/-- One row: a word `op` selects it iff `op & mask = pattern`; `build` reads the row's fields. -/
structure Row where
  mask : Word
  pattern : Word
  build : Word → Instr

/-- Does the word select the row? -/
def Row.selects (r : Row) (op : Word) : Bool := op &&& r.mask == r.pattern

/-- The rows `CLS` and `RET`, which take precedence over `SYS` (30_encoding.md R74). -/
def rowsFixed : List Row := [⟨0xFFFF, 0x00E0, fun _ => .cls⟩, ⟨0xFFFF, 0x00EE, fun _ => .ret⟩]

/-- The rows with mask 0xF000. -/
def rowsMajor : List Row := [
  ⟨0xF000, 0x0000, fun op => .sys (fieldNnn op)⟩,
  ⟨0xF000, 0x1000, fun op => .jp (fieldNnn op)⟩,
  ⟨0xF000, 0x2000, fun op => .call (fieldNnn op)⟩,
  ⟨0xF000, 0x3000, fun op => .seByte (fieldX op) (fieldKk op)⟩,
  ⟨0xF000, 0x4000, fun op => .sneByte (fieldX op) (fieldKk op)⟩,
  ⟨0xF000, 0x6000, fun op => .ldByte (fieldX op) (fieldKk op)⟩,
  ⟨0xF000, 0x7000, fun op => .addByte (fieldX op) (fieldKk op)⟩,
  ⟨0xF000, 0xA000, fun op => .ldI (fieldNnn op)⟩,
  ⟨0xF000, 0xB000, fun op => .jpV0 (fieldNnn op)⟩,
  ⟨0xF000, 0xC000, fun op => .rnd (fieldX op) (fieldKk op)⟩,
  ⟨0xF000, 0xD000, fun op => .drw (fieldX op) (fieldY op) (fieldN op)⟩]

/-- The rows with mask 0xF00F. -/
def rowsXy : List Row := [
  ⟨0xF00F, 0x5000, fun op => .seReg (fieldX op) (fieldY op)⟩,
  ⟨0xF00F, 0x8000, fun op => .ldReg (fieldX op) (fieldY op)⟩,
  ⟨0xF00F, 0x8001, fun op => .orReg (fieldX op) (fieldY op)⟩,
  ⟨0xF00F, 0x8002, fun op => .andReg (fieldX op) (fieldY op)⟩,
  ⟨0xF00F, 0x8003, fun op => .xorReg (fieldX op) (fieldY op)⟩,
  ⟨0xF00F, 0x8004, fun op => .addReg (fieldX op) (fieldY op)⟩,
  ⟨0xF00F, 0x8005, fun op => .sub (fieldX op) (fieldY op)⟩,
  ⟨0xF00F, 0x8006, fun op => .shr (fieldX op) (fieldY op)⟩,
  ⟨0xF00F, 0x8007, fun op => .subn (fieldX op) (fieldY op)⟩,
  ⟨0xF00F, 0x800E, fun op => .shl (fieldX op) (fieldY op)⟩,
  ⟨0xF00F, 0x9000, fun op => .sneReg (fieldX op) (fieldY op)⟩]

/-- The rows with mask 0xF0FF. -/
def rowsX : List Row := [
  ⟨0xF0FF, 0xE09E, fun op => .skp (fieldX op)⟩,
  ⟨0xF0FF, 0xE0A1, fun op => .sknp (fieldX op)⟩,
  ⟨0xF0FF, 0xF007, fun op => .ldVxDt (fieldX op)⟩,
  ⟨0xF0FF, 0xF00A, fun op => .ldVxK (fieldX op)⟩,
  ⟨0xF0FF, 0xF015, fun op => .ldDtVx (fieldX op)⟩,
  ⟨0xF0FF, 0xF018, fun op => .ldStVx (fieldX op)⟩,
  ⟨0xF0FF, 0xF01E, fun op => .addI (fieldX op)⟩,
  ⟨0xF0FF, 0xF029, fun op => .ldF (fieldX op)⟩,
  ⟨0xF0FF, 0xF033, fun op => .ldB (fieldX op)⟩,
  ⟨0xF0FF, 0xF055, fun op => .ldMemVx (fieldX op)⟩,
  ⟨0xF0FF, 0xF065, fun op => .ldVxMem (fieldX op)⟩]

/-- All 35 rows, `CLS` and `RET` first. -/
def opcodeTable : List Row := rowsFixed ++ rowsMajor ++ rowsXy ++ rowsX

/-- The instruction of the first row the word selects, if any. -/
def tableDecode (op : Word) : Option Instr := (opcodeTable.find? (·.selects op)).map (·.build op)

end Sys2Proof
end

