-- ==== Sys2Proof/Config.lean ====
section
/-! DEFINITION. The parameters of the hardware (00_scope.md R5) and the one free value (46_random.md R170). -/

namespace Sys2Proof

/-- The default table of the parameter `FONT`: glyph `d` at bytes `5*d .. 5*d+4` (20_memory.md R54).
PRESUMED: the spec takes the bytes from general knowledge (its G2); notes/assumptions/8.md. -/
def defaultFont : Vector Byte 80 := #v[
  0xF0, 0x90, 0x90, 0x90, 0xF0,  0x20, 0x60, 0x20, 0x20, 0x70,
  0xF0, 0x10, 0xF0, 0x80, 0xF0,  0xF0, 0x10, 0xF0, 0x10, 0xF0,
  0x90, 0x90, 0xF0, 0x10, 0x10,  0xF0, 0x80, 0xF0, 0x10, 0xF0,
  0xF0, 0x80, 0xF0, 0x90, 0xF0,  0xF0, 0x10, 0x20, 0x40, 0x40,
  0xF0, 0x90, 0xF0, 0x90, 0xF0,  0xF0, 0x90, 0xF0, 0x10, 0xF0,
  0xF0, 0x90, 0xF0, 0x90, 0x90,  0xE0, 0x90, 0xE0, 0x90, 0xE0,
  0xF0, 0x80, 0x80, 0x80, 0xF0,  0xE0, 0x90, 0x90, 0x90, 0xE0,
  0xF0, 0x80, 0xF0, 0x80, 0xF0,  0xF0, 0x80, 0xF0, 0x80, 0x80]

/-- The functional parameters the spec leaves OPEN: "A parameter marked OPEN is an argument of the model"
(00_scope.md R5). `INSTR_HZ` is timing only and has no place here. -/
structure Config where
  /-- `FONT`, the 80 bytes that reset stores at 0x000 (20_memory.md R54). -/
  font : Vector Byte 80
  /-- `RND_MASKED`: does `RND` mask its draw with `kk` (46_random.md R171)? -/
  rndMasked : Bool
deriving DecidableEq, Repr

/-- The defaults the spec gives the open parameters (00_scope.md R5). -/
def defaultConfig : Config := { font := defaultFont, rndMasked := false }

/-- The free value of the `k`-th random draw the schedule does not supply: "a fresh unconstrained value at every
execution of `RND`, under no law" (46_random.md R170). It has no body, so nothing can be proved of its value. -/
opaque Config.freeDraw : Nat → Byte

end Sys2Proof
end

