-- ==== Sys2Proof/Machine/State.lean ====
section
/-! DEFINITION. The state of the CHIP-8 CORE as plain data (10_state.md R20), the reasons a step can stop, and the state
after reset (10_state.md R36). -/

namespace Sys2Proof.Machine

/-- The run state `RUN` (10_state.md R32). -/
inductive RunState where
  | idle
  | running
  | stopped
  | faulted
deriving DecidableEq, Repr

/-- The kind of a fault record (60_exceptions.md R201). -/
inductive FaultKind where
  | none
  | decodeError
  | memoryFault
  | stackOverflow
  | stackUnderflow
  | loadError
deriving DecidableEq, Repr

/-- The fault record `FAULT` (10_state.md R33); which field a fault fills is 60_exceptions.md R203. -/
structure FaultRecord where
  kind : FaultKind
  opcode : Word
  pc : Word
  addr : Addr17
deriving DecidableEq, Repr

/-- One step of the total order of 47_agents_and_arbiter.md R187: a grant to an engine, or an operation of the host. -/
inductive Event where
  /-- a grant to the `CPU` (R180) -/
  | cpu
  /-- a tick of the delay-timer engine (R185) -/
  | dtTick
  /-- a tick of the sound-timer engine (R186) -/
  | stTick
  /-- the host's `start` (R190) -/
  | start
  /-- the host's `stop` (R191) -/
  | stop
  /-- the host's `setKey(id, pressed)` (R193) -/
  | setKey (id : Fin 16) (pressed : Bool)
  /-- the host's read of the framebuffer snapshot (R194) -/
  | snapshot
  /-- reset with the program image then presented (R195, 70_reset_and_hazards.md R230) -/
  | reset (image : List Byte)
deriving DecidableEq, Repr

/-- Memory: the cells that differ from what an unlisted address reads as, addresses strictly rising
(Machine/Memory.lean, notes/assumptions/8.md). -/
abbrev Memory := List Host.Cell

/-- Everything the spec gives the machine (10_state.md R20), and after it the model's own fields, which hold the spec's
parameters, inputs and one output as plain data. -/
structure State where
  /-- `V[0..15]`; `v[15]` is `VF` (R21, R22) -/
  v : Vector Byte 16
  /-- the address register `I` (R23) -/
  i : Word
  /-- the program counter `PC` (R24) -/
  pc : Word
  /-- the stack pointer `SP`, 0 to 16 (R25; notes/assumptions/9.md) -/
  sp : Fin 17
  /-- the call stack `Stack[0..15]` (R26) -/
  stack : Vector Word 16
  /-- the delay timer `DT` (R27) -/
  dt : Byte
  /-- the sound timer `ST` (R28) -/
  st : Byte
  /-- the memory `MEM` (R29) -/
  mem : Memory
  /-- the framebuffer `FB[y][x]`, row then column (R30) -/
  fb : Vector (Vector Bool 64) 32
  /-- the input latch `KEY[0..15]` (R31) -/
  key : Vector Bool 16
  /-- the run state `RUN` (R32) -/
  run : RunState
  /-- the fault record `FAULT` (R33) -/
  fault : FaultRecord
  /-- the model's own: the OPEN parameters `FONT` and `RND_MASKED` (00_scope.md R5; notes/assumptions/3.md) -/
  cfg : Config
  /-- the model's own: the steps still to come, oldest first, an input (47_agents_and_arbiter.md R188;
  notes/assumptions/1.md) -/
  schedule : List Event
  /-- the model's own: the bytes port `rnd_in` will show to the coming `RND`s, oldest first (46_random.md R170;
  notes/assumptions/2.md) -/
  rndIn : List Byte
  /-- the model's own: how many free draws have been taken (46_random.md R170; notes/assumptions/2.md) -/
  draws : Nat
  /-- the model's own: the output `cmd_error` as the latest `start` or `stop` left it (47_agents_and_arbiter.md R196;
  notes/assumptions/4.md) -/
  cmdError : Bool
deriving DecidableEq, Repr

/-- Why a run of the model stops with a fault: nothing does. Every fault of the spec has an entry the spec describes
(60_exceptions.md R205), which the model takes as a next state, and a frozen machine stays as it is (R215). No
constructor, so no one raises one; safe (notes/assumptions/5.md). -/
inductive Fault where
deriving DecidableEq, Repr

/-- Why the model refuses an instruction. -/
inductive Refusal where
  /-- raised only by an arm of `exec` whose instruction has no meaning yet; safe. No arm raises it now. -/
  | notModelled (mnemonic : String)
deriving DecidableEq, Repr

/-- The fault record of reset: `kind = None`, other fields 0 (10_state.md R33, R36). -/
def FaultRecord.clear : FaultRecord := { kind := .none, opcode := 0x0000, pc := 0x0000, addr := 0 }

/-- The machine right after reset with an empty image (10_state.md R36, 70_reset_and_hazards.md R230, R231). Memory lists
nothing: an unlisted address reads as its reset contents. The model's own fields take the values of
notes/assumptions/1.md to 4.md. -/
def State.reset : State where
  v := Vector.replicate 16 0x00
  i := 0x0000
  pc := 0x0200
  sp := 0
  stack := Vector.replicate 16 0x0000
  dt := 0x00
  st := 0x00
  mem := []
  fb := Vector.replicate 32 (Vector.replicate 64 false)
  key := Vector.replicate 16 false
  run := .idle
  fault := FaultRecord.clear
  cfg := defaultConfig
  schedule := []
  rndIn := []
  draws := 0
  cmdError := false

end Sys2Proof.Machine
end

