-- ==== Sys2Proof/Machine/Memory.lean ====
section
/-! DEFINITION. The 4096 byte cells (20_memory.md R50): what an unlisted address reads as, reading, writing, the canonical
form, and runs of bytes. Addresses are natural numbers, never masked (R57). -/

namespace Sys2Proof.Machine

/-- `MEM_SIZE` (00_scope.md R5): the addresses are 0x000 to 0xFFF. -/
def memSize : Nat := 0x1000

/-- `PROG_BASE` (00_scope.md R5): where the program is loaded and where execution begins. -/
def progBase : Nat := 0x200

/-- `FONT_BASE` (00_scope.md R5). -/
def fontBase : Nat := 0x000

/-- What an unlisted address reads as: the reset contents under the default parameters, the font at 0x000 to 0x04F and
0x00 elsewhere (10_state.md R36, 20_memory.md R51, R54). -/
def unlisted (a : Nat) : Byte := if h : a < 80 then defaultFont[a] else 0x00

/-- The byte at an address: the listed one, else the reset contents. -/
def Memory.read : Memory → Nat → Byte
  | [], a => unlisted a
  | (k, b) :: m, a => if a = k then b else Memory.read m a

/-- The memory without an entry for the address. -/
def Memory.erase (m : Memory) (a : Nat) : Memory := m.filter (fun c => c.1 != a)

/-- The memory with an entry added in its place; the address is not listed. -/
def Memory.insert : Memory → Nat → Byte → Memory
  | [], a, b => [(a, b)]
  | (k, c) :: m, a, b => if a < k then (a, b) :: (k, c) :: m else (k, c) :: Memory.insert m a b

/-- Store a byte. Storing what an unlisted address reads as removes the entry, so that equal memories are equal lists. -/
def Memory.write (m : Memory) (a : Nat) (b : Byte) : Memory :=
  if b = unlisted a then m.erase a else (m.erase a).insert a b

/-- The canonical form: addresses strictly rising and inside the memory, no entry equal to the unlisted contents. -/
def Memory.wf : Memory → Bool
  | [] => true
  | (k, b) :: m => decide (k < memSize) && b != unlisted k && m.all (fun c => decide (k < c.1)) && Memory.wf m

/-- The `n` bytes from an address upwards, lowest first. -/
def Memory.readBytes (m : Memory) (a n : Nat) : List Byte := (List.range n).map (fun k => m.read (a + k))

/-- Store bytes at ascending addresses, the first at the given one. -/
def Memory.writeBytes : Memory → Nat → List Byte → Memory
  | m, _, [] => m
  | m, a, b :: bs => Memory.writeBytes (m.write a b) (a + 1) bs

end Sys2Proof.Machine
end

