-- ==== Sys2Proof/Machine/Ops.lean ====
section
/-! DEFINITION. The operations the meanings share: registers, the program counter, the call stack, the bound check, fault
entry and the random draw. -/

namespace Sys2Proof.Machine

/-- What a step of the machine answers. -/
abbrev Result := Host.Outcome State Fault Refusal

/-! ## Registers (10_state.md R21) -/

/-- The flag register `VF` is `V[15]` (10_state.md R22). -/
def vf : RegIdx := 15

/-- `V[x]`. -/
def State.reg (s : State) (x : RegIdx) : Byte := s.v[x]

/-- `V[x] <- b`. -/
def State.setReg (s : State) (x : RegIdx) (b : Byte) : State := { s with v := s.v.set x b }

/-- `I <- w`. -/
def State.setI (s : State) (w : Word) : State := { s with i := w }

/-- `DT <- b`. -/
def State.setDt (s : State) (b : Byte) : State := { s with dt := b }

/-- `ST <- b`. -/
def State.setSt (s : State) (b : Byte) : State := { s with st := b }

/-- `MEM` replaced. -/
def State.setMem (s : State) (m : Memory) : State := { s with mem := m }

/-- `FB` replaced. -/
def State.setFb (s : State) (fb : Vector (Vector Bool 64) 32) : State := { s with fb := fb }

/-! ## The program counter (40_control_flow.md R100) -/

/-- `PC <- target`. -/
def State.setPc (s : State) (w : Word) : State := { s with pc := w }

/-- The address of the instruction after this one, `(PC + 2) mod 65536`. -/
def nextPc (pc : Word) : Word := pc + 2#16

/-- The address of the instruction after the next one, `(PC + 4) mod 65536`. -/
def skipPc (pc : Word) : Word := pc + 4#16

/-- `next`. -/
def State.next (s : State) : State := s.setPc (nextPc s.pc)

/-- `skip` where the condition holds, else `next`. -/
def State.skipIf (s : State) (c : Bool) : State := s.setPc (if c then skipPc s.pc else nextPc s.pc)

/-! ## Faults (60_exceptions.md R203, R205) -/

/-- Fault entry: the record is written and the core freezes; nothing else changes (60_exceptions.md R205). The faulting
instruction's writes are discarded because every meaning checks before it writes (00_scope.md R9). -/
def State.faultEntry (s : State) (r : FaultRecord) : State := { s with fault := r, run := .faulted }

/-- `raise kind`, with the opcode and the `PC` of the faulting instruction and an address (60_exceptions.md R203). -/
def raise (kind : FaultKind) (opcode : Word) (addr : Addr17) (s : State) : Result :=
  .next (s.faultEntry { kind := kind, opcode := opcode, pc := s.pc, addr := addr })

/-! ## The bound check (20_memory.md R57, 42_memory_address.md R130) -/

/-- Do all of the `n` addresses from `a` upwards exist? An access of no byte checks nothing (45_draw.md R162). -/
def spanOk (a n : Nat) : Bool := decide (n = 0 ∨ a + n ≤ memSize)

/-- The lowest out-of-range address of an access that starts at `a` and fails: `max(a, 0x1000)`. -/
def lowestBad (a : Nat) : Addr17 := BitVec.ofNat 17 (max a memSize)

/-! ## The call stack (10_state.md R25, R26) -/

/-- `Stack[SP] <- w`, then `SP <- SP + 1`; nothing where all 16 slots are in use. -/
def State.push (s : State) (w : Word) : Option State :=
  if h : s.sp.val < 16 then
    some { s with stack := s.stack.set s.sp.val w, sp := ⟨s.sp.val + 1, by omega⟩ }
  else none

/-- The top entry, and the state with `SP <- SP - 1`; the slot keeps its value. Nothing where `SP = 0`. -/
def State.pop (s : State) : Option (Word × State) :=
  if h : 0 < s.sp.val then
    some (s.stack[s.sp.val - 1], { s with sp := ⟨s.sp.val - 1, by omega⟩ })
  else none

/-! ## The random source (46_random.md R170) -/

/-- `rnd()`: the byte the port shows to this `RND`, or a free value where the inputs do not say. -/
def State.draw (s : State) : Byte :=
  match s.rndIn with
  | b :: _ => b
  | [] => Config.freeDraw s.draws

/-- The state after one draw. -/
def State.drawn (s : State) : State :=
  match s.rndIn with
  | _ :: rest => { s with rndIn := rest }
  | [] => { s with draws := s.draws + 1 }

/-! ## Fetch (47_agents_and_arbiter.md R181) -/

/-- `Fetch(PC)`: the big-endian pair at `PC`, or the out-of-range address. `PC + 1` does not wrap. -/
def fetch (s : State) : Except Addr17 Word :=
  if s.pc.toNat > 0xFFF then .error (s.pc.setWidth 17)
  else if s.pc.toNat + 1 > 0xFFF then .error 0x1000#17
  else .ok (wordOfBytes (s.mem.read s.pc.toNat) (s.mem.read (s.pc.toNat + 1)))

/-- The memory with an opcode stored at an address, as fetch reads it; unchanged where the pair does not fit. -/
def placeWord (m : Memory) (a : Nat) (op : Word) : Memory :=
  if a + 2 ≤ memSize then m.writeBytes a [highByte op, lowByte op] else m

end Sys2Proof.Machine
end

