-- ==== Sys2Proof/Machine/Operands.lean ====
section
/-! DEFINITION. The operand forms: immediates (30_encoding.md R73), the operands selected by a register's low bits, and the
run of registers of the block transfers. -/

namespace Sys2Proof.Machine

/-- `zext_16(nnn)` (30_encoding.md R73). -/
def addrOperand (nnn : Addr12) : Word := nnn.setWidth 16

/-- `zext_16(b)`: a byte as an offset to a 16-bit register (40_control_flow.md R109, 42_memory_address.md R132). -/
def byteOffset (b : Byte) : Word := b.setWidth 16

/-- `V[x][3:0]`: the key a register names (44_key_instructions.md R150). -/
def keyIndex (b : Byte) : Fin 16 := (b.extractLsb' 0 4).toFin

/-- `zext_16(5 * d)` with `d = V[x][3:0]`: the address of a glyph (42_memory_address.md R133). -/
def glyphAddr (b : Byte) : Word := BitVec.ofNat 16 (fontBase + 5 * (b.extractLsb' 0 4).toNat)

/-- `x0 = V[x] mod 64` (45_draw.md R162). -/
def column (b : Byte) : Nat := b.toNat % 64

/-- `y0 = V[y] mod 32` (45_draw.md R162). -/
def row (b : Byte) : Nat := b.toNat % 32

/-- `V[0], ..., V[x]`, lowest first: the source of the block store (42_memory_address.md R135). -/
def regBlock (v : Vector Byte 16) (x : RegIdx) : List Byte := v.toList.take (x.val + 1)

/-- The registers with `V[k] <- MemRead(base + k)` for `k` in `0..x` (42_memory_address.md R136). -/
def loadRegBlock (v : Vector Byte 16) (m : Memory) (base : Nat) (x : RegIdx) : Vector Byte 16 :=
  Vector.ofFn (fun k : Fin 16 => if k ≤ x then m.read (base + k.val) else v[k])

/-- The hundreds, tens and ones digits of a byte, in that order (42_memory_address.md R134). -/
def bcdDigits (b : Byte) : List Byte :=
  [BitVec.ofNat 8 (b.toNat / 100), BitVec.ofNat 8 (b.toNat / 10 % 10), BitVec.ofNat 8 (b.toNat % 10)]

end Sys2Proof.Machine
end

