-- ==== Sys2Proof/Machine/Address.lean ====
section
/-! DEFINITION. Memory and address-register instructions (42_memory_address.md). The bound check of all addresses comes
before any write, and `I` is not changed by a transfer (R130). -/

namespace Sys2Proof.Machine

/-- `LD I, addr` (R131). -/
def execLdI (nnn : Addr12) (s : State) : Result := .next (s.setI (addrOperand nnn)).next

/-- `ADD I, Vx`: modulo 65536, `VF` is not written (R132). -/
def execAddI (x : RegIdx) (s : State) : Result := .next (s.setI (s.i + byteOffset (s.reg x))).next

/-- `LD F, Vx`: the address of the glyph the low nibble names (R133). -/
def execLdF (x : RegIdx) (s : State) : Result := .next (s.setI (glyphAddr (s.reg x))).next

/-- `LD B, Vx`: the three decimal digits at `I`, `I+1`, `I+2` (R134). -/
def execLdB (x : RegIdx) (s : State) : Result :=
  if spanOk s.i.toNat 3 then .next (s.setMem (s.mem.writeBytes s.i.toNat (bcdDigits (s.reg x)))).next
  else raise .memoryFault (encode (.ldB x)) (lowestBad s.i.toNat) s

/-- `LD [I], Vx`: stores `V[0]` to `V[x]` (R135). -/
def execLdMemVx (x : RegIdx) (s : State) : Result :=
  if spanOk s.i.toNat (x.val + 1) then .next (s.setMem (s.mem.writeBytes s.i.toNat (regBlock s.v x))).next
  else raise .memoryFault (encode (.ldMemVx x)) (lowestBad s.i.toNat) s

/-- `LD Vx, [I]`: loads `V[0]` to `V[x]` (R136). -/
def execLdVxMem (x : RegIdx) (s : State) : Result :=
  if spanOk s.i.toNat (x.val + 1) then
    .next ({ s with v := loadRegBlock s.v s.mem s.i.toNat x } : State).next
  else raise .memoryFault (encode (.ldVxMem x)) (lowestBad s.i.toNat) s

end Sys2Proof.Machine
end

