-- ==== Sys2Proof/Machine/Alu.lean ====
section
/-! DEFINITION. Register load and ALU instructions (41_register_alu.md). All arithmetic is modulo 256 (R110). -/

namespace Sys2Proof.Machine

/-- `LD Vx, byte` (R111). -/
def execLdByte (x : RegIdx) (kk : Byte) (s : State) : Result := .next (s.setReg x kk).next

/-- `ADD Vx, byte`; `VF` is not written as a flag (R112). -/
def execAddByte (x : RegIdx) (kk : Byte) (s : State) : Result := .next (s.setReg x (s.reg x + kk)).next

/-- `LD Vx, Vy` (R113). -/
def execLdReg (x y : RegIdx) (s : State) : Result := .next (s.setReg x (s.reg y)).next

/-- `OR Vx, Vy` (R114). -/
def execOr (x y : RegIdx) (s : State) : Result := .next (s.setReg x (s.reg x ||| s.reg y)).next

/-- `AND Vx, Vy` (R115). -/
def execAnd (x y : RegIdx) (s : State) : Result := .next (s.setReg x (s.reg x &&& s.reg y)).next

/-- `XOR Vx, Vy` (R116). -/
def execXor (x y : RegIdx) (s : State) : Result := .next (s.setReg x (s.reg x ^^^ s.reg y)).next

/-- `ADD Vx, Vy`: `VF` is the carry (R117). -/
def execAddReg (x y : RegIdx) (s : State) : Result :=
  .next (s.setRegFlag x (s.reg x + s.reg y) (carryFlag (s.reg x) (s.reg y))).next

/-- `SUB Vx, Vy`: `VF` is NOT borrow (R118). -/
def execSub (x y : RegIdx) (s : State) : Result :=
  .next (s.setRegFlag x (s.reg x - s.reg y) (noBorrowFlag (s.reg x) (s.reg y))).next

/-- `SHR Vx {, Vy}`: shifts `V[x]` in place, `y` is ignored (R119). -/
def execShr (x _y : RegIdx) (s : State) : Result :=
  .next (s.setRegFlag x (s.reg x >>> 1) (lowBitFlag (s.reg x))).next

/-- `SUBN Vx, Vy`: the reverse subtraction (R120). -/
def execSubn (x y : RegIdx) (s : State) : Result :=
  .next (s.setRegFlag x (s.reg y - s.reg x) (noBorrowFlag (s.reg y) (s.reg x))).next

/-- `SHL Vx {, Vy}`: shifts `V[x]` in place, `y` is ignored (R121). -/
def execShl (x _y : RegIdx) (s : State) : Result :=
  .next (s.setRegFlag x (s.reg x <<< 1) (highBitFlag (s.reg x))).next

end Sys2Proof.Machine
end

