-- ==== Sys2Proof/Machine/Control.lean ====
section
/-! DEFINITION. Control-flow instructions (40_control_flow.md). -/

namespace Sys2Proof.Machine

/-- `SYS addr` always raises `DecodeError` (R101). -/
def execSys (nnn : Addr12) (s : State) : Result := raise .decodeError (encode (.sys nnn)) 0 s

/-- `RET`: `PC` receives the popped value itself; `StackUnderflow` when `SP = 0` (R102). -/
def execRet (s : State) : Result :=
  match s.pop with
  | some (ret, s') => .next (s'.setPc ret)
  | none => raise .stackUnderflow (encode .ret) 0 s

/-- `JP addr` (R103). -/
def execJp (nnn : Addr12) (s : State) : Result := .next (s.setPc (addrOperand nnn))

/-- `CALL addr`: pushes the address after the `CALL`; `StackOverflow` when `SP = 16` (R104). -/
def execCall (nnn : Addr12) (s : State) : Result :=
  match s.push (nextPc s.pc) with
  | some s' => .next (s'.setPc (addrOperand nnn))
  | none => raise .stackOverflow (encode (.call nnn)) 0 s

/-- `SE Vx, byte` (R105). -/
def execSeByte (x : RegIdx) (kk : Byte) (s : State) : Result := .next (s.skipIf (s.reg x == kk))

/-- `SNE Vx, byte` (R106). -/
def execSneByte (x : RegIdx) (kk : Byte) (s : State) : Result := .next (s.skipIf (s.reg x != kk))

/-- `SE Vx, Vy` (R107). -/
def execSeReg (x y : RegIdx) (s : State) : Result := .next (s.skipIf (s.reg x == s.reg y))

/-- `SNE Vx, Vy` (R108). -/
def execSneReg (x y : RegIdx) (s : State) : Result := .next (s.skipIf (s.reg x != s.reg y))

/-- `JP V0, addr`: the sum is not masked to 12 bits (R109). -/
def execJpV0 (nnn : Addr12) (s : State) : Result := .next (s.setPc (addrOperand nnn + byteOffset (s.reg 0)))

end Sys2Proof.Machine
end

