-- ==== Sys2Proof/Machine/Draw.lean ====
section
/-! DEFINITION. Framebuffer instructions (45_draw.md): the clear and the sprite XOR-blend. Coordinates wrap on both axes and
nothing is clipped (R160). -/

namespace Sys2Proof.Machine

/-- A 64×32 grid of pixels, row then column (10_state.md R30). -/
abbrev Grid := Vector (Vector Bool 64) 32

/-- `FB[y][x]`. -/
def Grid.pixel (g : Grid) (y : Fin 32) (x : Fin 64) : Bool := g[y][x]

/-- `FB[y][x] <- b`. -/
def Grid.setPixel (g : Grid) (y : Fin 32) (x : Fin 64) (b : Bool) : Grid := g.set y (g[y].set x b)

/-- All pixels 0. -/
def Grid.blank : Grid := Vector.replicate 32 (Vector.replicate 64 false)

/-- What a draw has done so far: the grid, and whether a pixel went from 1 to 0. -/
structure Blend where
  grid : Grid
  collision : Bool
deriving DecidableEq, Repr

/-- XOR one sprite bit onto a pixel: a bit of 0 leaves it, a bit of 1 on a lit pixel is a collision (R162). -/
def blendBit (d : Blend) (y : Fin 32) (x : Fin 64) (bit : Bool) : Blend :=
  if bit then
    { grid := d.grid.setPixel y x (d.grid.pixel y x ^^ true), collision := d.collision || d.grid.pixel y x }
  else d

/-- One sprite row: bit `7 - c` at column `(x0 + c) mod 64` (R162). -/
def blendRow (d : Blend) (y : Fin 32) (x0 : Nat) (b : Byte) : Blend :=
  (List.range 8).foldl (fun d c => blendBit d y (Fin.ofNat 64 (x0 + c)) (b.getLsbD (7 - c))) d

/-- The sprite's rows, the first at `y0`, each next one at the row below, `(y0 + r) mod 32` (R162). -/
def blendRows (d : Blend) (y0 x0 : Nat) : List Byte → Blend
  | [] => d
  | b :: bs => blendRows (blendRow d (Fin.ofNat 32 y0) x0 b) (y0 + 1) x0 bs

/-- `CLS` (R161). -/
def execCls (s : State) : Result := .next (s.setFb Grid.blank).next

/-- `DRW Vx, Vy, n`: coordinates are read before any write, the bound is checked before any pixel changes, `VF` receives
the collision last; `n = 0` reads nothing, checks nothing and clears `VF` (R162). -/
def execDrw (x y : RegIdx) (n : Fin 16) (s : State) : Result :=
  if spanOk s.i.toNat n.val then
    let d := blendRows { grid := s.fb, collision := false } (row (s.reg y)) (column (s.reg x))
      (s.mem.readBytes s.i.toNat n.val)
    .next ((s.setFb d.grid).setReg vf (flagByte d.collision)).next
  else raise .memoryFault (encode (.drw x y n)) (lowestBad s.i.toNat) s

end Sys2Proof.Machine
end

