-- ==== Sys2Proof/Machine/Key.lean ====
section
/-! DEFINITION. Key instructions (44_key_instructions.md). The latch is read once, at the instruction's own step (R150). -/

namespace Sys2Proof.Machine

/-- `KEY[k]`. -/
def State.keyDown (s : State) (k : Fin 16) : Bool := s.key[k]

/-- The least pressed key, if any (R153). -/
def State.lowestKey (s : State) : Option (Fin 16) := (List.finRange 16).find? (fun k => s.keyDown k)

/-- `SKP Vx` (R151). -/
def execSkp (x : RegIdx) (s : State) : Result := .next (s.skipIf (s.keyDown (keyIndex (s.reg x))))

/-- `SKNP Vx` (R152). -/
def execSknp (x : RegIdx) (s : State) : Result := .next (s.skipIf (!s.keyDown (keyIndex (s.reg x))))

/-- `LD Vx, K`: the lowest pressed key; while none is down a step that changes nothing, so that the same instruction is
fetched again (R153). -/
def execLdVxK (x : RegIdx) (s : State) : Result :=
  match s.lowestKey with
  | some k => .next (s.setReg x (BitVec.ofNat 8 k.val)).next
  | none => .next s

end Sys2Proof.Machine
end

