-- ==== Sys2Proof/Machine/Random.lean ====
section
/-! DEFINITION. The random-byte instruction (46_random.md). -/

namespace Sys2Proof.Machine

/-- The byte `RND` loads: the draw, masked with `kk` only under `RND_MASKED` (R171). -/
def rndResult (masked : Bool) (draw kk : Byte) : Byte := if masked then draw &&& kk else draw

/-- `RND Vx, byte`: one draw (R170, R171). -/
def execRnd (x : RegIdx) (kk : Byte) (s : State) : Result :=
  .next (s.drawn.setReg x (rndResult s.cfg.rndMasked s.draw kk)).next

end Sys2Proof.Machine
end

