-- ==== Sys2Proof/Machine/Timer.lean ====
section
/-! DEFINITION. Timer instructions (43_timer_instructions.md). No instruction reads `ST` (R140). -/

namespace Sys2Proof.Machine

/-- `LD Vx, DT` (R141). -/
def execLdVxDt (x : RegIdx) (s : State) : Result := .next (s.setReg x s.dt).next

/-- `LD DT, Vx` (R142). -/
def execLdDtVx (x : RegIdx) (s : State) : Result := .next (s.setDt (s.reg x)).next

/-- `LD ST, Vx` (R143). -/
def execLdStVx (x : RegIdx) (s : State) : Result := .next (s.setSt (s.reg x)).next

end Sys2Proof.Machine
end

