-- ==== Sys2Proof/Machine/Agents.lean ====
section
/-! DEFINITION. The steps of the four agents (47_agents_and_arbiter.md): the instruction cycle, the two timer engines, the
host's operations, and reset (70_reset_and_hazards.md). -/

namespace Sys2Proof.Machine

/-! ## The CPU -/

/-- Fetch, decode and execute, each of which may raise (47_agents_and_arbiter.md R180 to R182, 60_exceptions.md R204). A
fetch fault records opcode 0. -/
def cpuCycle (s : State) : Result :=
  match fetch s with
  | .error addr => raise .memoryFault 0x0000 addr s
  | .ok op =>
    match decodeWord op with
    | .error _ => raise .decodeError op 0 s
    | .ok i => exec i s

/-- A grant to the `CPU`: it has a step iff `RUN = RUNNING` (47_agents_and_arbiter.md R184); otherwise nothing changes. -/
def cpuStep (s : State) : Result :=
  match s.run with
  | .running => cpuCycle s
  | .idle | .stopped | .faulted => .next s

/-! ## The timer engines -/

/-- One decrement, clamped at zero (47_agents_and_arbiter.md R185, R186). -/
def countDown (b : Byte) : Byte := if b = 0#8 then 0#8 else b - 1#8

/-- One tick of `DTENG`, only while `RUN = RUNNING` (47_agents_and_arbiter.md R185). -/
def dtTick (s : State) : State :=
  match s.run with
  | .running => s.setDt (countDown s.dt)
  | .idle | .stopped | .faulted => s

/-- One tick of `STENG`, only while `RUN = RUNNING` (47_agents_and_arbiter.md R186). -/
def stTick (s : State) : State :=
  match s.run with
  | .running => s.setSt (countDown s.st)
  | .idle | .stopped | .faulted => s

/-! ## The host -/

/-- `start`: from `IDLE` only, else refused with `cmd_error` (47_agents_and_arbiter.md R190). -/
def hostStart (s : State) : State :=
  match s.run with
  | .idle => { s with run := .running, cmdError := false }
  | .running | .stopped | .faulted => { s with cmdError := true }

/-- `stop`: from `RUNNING`; refused with `cmd_error` in `IDLE`; a harmless no-op after a stop or a fault
(47_agents_and_arbiter.md R191). -/
def hostStop (s : State) : State :=
  match s.run with
  | .running => { s with run := .stopped, cmdError := false }
  | .idle => { s with cmdError := true }
  | .stopped | .faulted => { s with cmdError := false }

/-- `setKey(id, pressed)`, in every run state (47_agents_and_arbiter.md R193). -/
def hostSetKey (id : Fin 16) (pressed : Bool) (s : State) : State := { s with key := s.key.set id pressed }

/-! ## Reset (70_reset_and_hazards.md) -/

/-- `MAX_PROG_LEN` (00_scope.md R5): the longest image that fits from 0x200. -/
def maxProgLen : Nat := 3584

/-- The memory reset leaves: 0x00, then the font, then the image (70_reset_and_hazards.md R230). Under the default font
the first line lists nothing, since that is what unlisted addresses read as. -/
def resetMemory (font : Vector Byte 80) (image : List Byte) : Memory :=
  (Memory.writeBytes [] fontBase font.toList).writeBytes progBase image

/-- The record of a load error (70_reset_and_hazards.md R232, 60_exceptions.md R203). -/
def loadErrorRecord : FaultRecord := { kind := .loadError, opcode := 0x0000, pc := 0x0200, addr := 0x1000 }

/-- Every element at its reset value, with the given image in memory. The parameters and the inputs still to come are not
state of the machine and stay (notes/assumptions/11.md). -/
def resetWith (image : List Byte) (s : State) : State :=
  { State.reset with
    mem := resetMemory s.cfg.font image, cfg := s.cfg, schedule := s.schedule, rndIn := s.rndIn, draws := s.draws }

/-- `Reset(P, len)`, in any run state; an image that does not fit is not loaded and leaves the load-error state
(70_reset_and_hazards.md R230, R232). -/
def hostReset (image : List Byte) (s : State) : State :=
  if image.length > maxProgLen then (resetWith [] s).faultEntry loadErrorRecord else resetWith image s

/-! ## One event -/

/-- One atomic step of the total order (47_agents_and_arbiter.md R187). -/
def deliver (e : Event) (s : State) : Result :=
  match e with
  | .cpu => cpuStep s
  | .dtTick => .next (dtTick s)
  | .stTick => .next (stTick s)
  | .start => .next (hostStart s)
  | .stop => .next (hostStop s)
  | .setKey id pressed => .next (hostSetKey id pressed s)
  | .snapshot => .next s
  | .reset image => .next (hostReset image s)

/-- The next event of the schedule, removed from it; where the schedule says nothing, a grant to the `CPU`
(47_agents_and_arbiter.md R188; notes/assumptions/1.md). -/
def grantNext (s : State) : Result :=
  match s.schedule with
  | [] => cpuStep s
  | e :: rest => deliver e { s with schedule := rest }

/-- The state in which the next step is a grant to the `CPU` that fetches the given opcode: the opcode at `PC`, `RUN`
set, and no other event before the grant (notes/assumptions/7.md and 16.md). -/
def readyToRun (s : State) (op : Word) : State :=
  { s with mem := placeWord s.mem s.pc.toNat op, run := .running, schedule := [] }

end Sys2Proof.Machine
end

