-- ==== Sys2Proof/Machine/Step.lean ====
section
/-! DEFINITION. One step of the machine: the next event of the total order (47_agents_and_arbiter.md R187, R188). -/

namespace Sys2Proof.Machine

/-- One atomic step. -/
def step (s : State) : Host.Outcome State Fault Refusal := grantNext s

/-- The state with an instruction word stored where the next step fetches it, and the `CPU` granted next
(notes/assumptions/7.md and 16.md). -/
def State.withFetchWord (s : State) (nbits w : Nat) : State := readyToRun s (BitVec.ofNat 16 (w % 2 ^ nbits))

end Sys2Proof.Machine
end

