-- ==== Sys2Proof/Machine/Arbiter.lean ====
section
/-! DEFINITION. The clock arbiter (47_agents_and_arbiter.md R189): requests that coincide are granted one per base-clock
cycle in a fixed order, and a request is held until it is granted. It makes a schedule out of a trace of requests; the
step of the machine takes any schedule (R188), so nothing else depends on this file. -/

namespace Sys2Proof.Machine

/-- The fixed order of grants: `DTENG`, `STENG`, `HOST` (key write, start, stop), `CPU`. The place of reset and of the
snapshot among the host's is the model's choice (notes/assumptions/15.md). -/
def Event.rank : Event → Nat
  | .dtTick => 0
  | .stTick => 1
  | .setKey _ _ => 2
  | .start => 3
  | .stop => 4
  | .reset _ => 5
  | .snapshot => 6
  | .cpu => 7

/-- Hold one more request, behind every held request of its own or an earlier rank. -/
def hold (e : Event) : List Event → List Event
  | [] => [e]
  | q :: qs => if e.rank < q.rank then e :: q :: qs else q :: hold e qs

/-- Hold the requests that arrive in one cycle. -/
def holdAll (held : List Event) (arrivals : List Event) : List Event := arrivals.foldl (fun h e => hold e h) held

/-- The grants, cycle by cycle: in each cycle the arriving requests join the held ones and the first of them is granted;
after the last arrivals the held requests are granted one by one. -/
def grantOrder (held : List Event) : List (List Event) → List Event
  | [] => held
  | arrivals :: later =>
    match holdAll held arrivals with
    | [] => grantOrder [] later
    | e :: rest => e :: grantOrder rest later

end Sys2Proof.Machine
end

