-- ==== Sys2Proof/Machine/Ports.lean ====
section
/-! DEFINITION. The outputs of the block as functions of the state (47_agents_and_arbiter.md R194, R196). -/

namespace Sys2Proof.Machine

/-- `fb_out[2047:0]`, with `fb_out[64*y + x] = FB[y][x]` (47_agents_and_arbiter.md R194). -/
def fbOut (s : State) : BitVec 2048 :=
  BitVec.ofFnLE (fun k : Fin 2048 => (s.fb[k.val / 64])[k.val % 64])

/-- `run_state[1:0]` (47_agents_and_arbiter.md R196). -/
def runStateOut (s : State) : BitVec 2 :=
  match s.run with
  | .idle => 0
  | .running => 1
  | .stopped => 2
  | .faulted => 3

/-- The code of a fault kind (60_exceptions.md R201). -/
def faultCode (k : FaultKind) : BitVec 3 :=
  match k with
  | .none => 0
  | .decodeError => 1
  | .memoryFault => 2
  | .stackOverflow => 3
  | .stackUnderflow => 4
  | .loadError => 5

/-- `fault_kind[2:0]`. -/
def faultKindOut (s : State) : BitVec 3 := faultCode s.fault.kind

/-- `fault_opcode[15:0]`. -/
def faultOpcodeOut (s : State) : Word := s.fault.opcode

/-- `fault_pc[15:0]`. -/
def faultPcOut (s : State) : Word := s.fault.pc

/-- `fault_addr[16:0]`. -/
def faultAddrOut (s : State) : Addr17 := s.fault.addr

/-- `cmd_error`, as the latest `start` or `stop` left it (notes/assumptions/4.md). -/
def cmdErrorOut (s : State) : Bool := s.cmdError

end Sys2Proof.Machine
end

