-- ==== Sys2Proof/Safety.lean ====
section
/-! DEFINITION. What the claims speak of: the invariant of the machine, safe runs and finished programs, the words R80 calls
illegal, the fault each instruction can raise, and a sprite as a set of pixels. -/

namespace Sys2Proof.Machine

/-! ## The invariant -/

/-- The fault record fits its kind (60_exceptions.md R203). -/
abbrev FaultRecord.fits (r : FaultRecord) : Prop :=
  match r.kind with
  | .none => r = FaultRecord.clear
  | .decodeError => r.addr = 0
  | .memoryFault => 0x1000 ≤ r.addr.toNat
  | .stackOverflow => r.addr = 0 ∧ fieldN0 r.opcode = 0x2#4
  | .stackUnderflow => r.addr = 0 ∧ r.opcode = 0x00EE
  | .loadError => r = loadErrorRecord

/-- Every entry of the stack in use is the address of a `CALL` plus 2, so at most 0x1000 (10_state.md R37). -/
abbrev stackOk (s : State) : Prop := ∀ k : Fin 16, k.val < s.sp.val → (s.stack[k]).toNat ≤ 0x1000

/-- What every step keeps: memory is canonical and inside its 4096 cells (R29, R37), `PC` is at most 0x10FE (R24), the
stack in use holds return addresses (R37), a fault is recorded exactly in `FAULTED` (R32, R33), its record fits its kind
(R203) and its pc is the machine's `PC` (R205). -/
abbrev Inv (s : State) : Prop :=
  s.mem.wf = true ∧ s.pc.toNat ≤ 0x10FE ∧ stackOk s ∧ (s.fault.kind = .none ↔ s.run ≠ .faulted) ∧
    s.fault.fits ∧ (s.run = .faulted → s.fault.pc = s.pc)

/-! ## Safe and finished -/

/-- "no fault recorded" (60_exceptions.md R207). -/
abbrev NoFault (s : State) : Prop := s.fault.kind = .none

/-- The opcode at `PC`, big-endian (20_memory.md R53). -/
def wordAtPc (s : State) : Word := wordOfBytes (s.mem.read s.pc.toNat) (s.mem.read (s.pc.toNat + 1))

/-- The program has finished by the convention of 47_agents_and_arbiter.md R198: it stands at a jump to itself. -/
abbrev Finished (s : State) : Prop := s.pc.toNat ≤ 0xFFE ∧ (wordAtPc s).toNat = 0x1000 + s.pc.toNat

/-- A run of `k` steps in which no fault was recorded. -/
def SafeRun (k : Nat) (s : State) : Prop :=
  match k with
  | 0 => NoFault s
  | k + 1 => NoFault s ∧ ∃ t, step s = .next t ∧ SafeRun k t

/-! ## The table of illegal words (30_encoding.md R80), in numbers -/

/-- Is the word one of the six sets of R80's table? The first set is `SYS`. -/
def illegalWord (w : Nat) : Bool :=
  let n0 := w / 4096
  let n3 := w % 16
  let kk := w % 256
  (n0 == 0 && !(w == 0x00E0 || w == 0x00EE)) || (n0 == 5 && n3 != 0) ||
    (n0 == 8 && (n3 == 8 || n3 == 9 || n3 == 10 || n3 == 11 || n3 == 12 || n3 == 13 || n3 == 15)) ||
    (n0 == 9 && n3 != 0) || (n0 == 14 && !(kk == 0x9E || kk == 0xA1)) ||
    (n0 == 15 && !(kk == 0x07 || kk == 0x0A || kk == 0x15 || kk == 0x18 || kk == 0x1E || kk == 0x29 || kk == 0x33 ||
      kk == 0x55 || kk == 0x65))

/-- Does the decoder read the word as an instruction other than `SYS`? These are the words R81 counts as legal. -/
def legalWord (op : Word) : Bool :=
  match decodeWord op with
  | .ok (.sys _) | .error _ => false
  | .ok _ => true

/-- How many words of a group `n0` are legal, `SYS` counted as illegal (30_encoding.md R81). -/
def legalCount (g : Fin 16) : Nat :=
  match g.val with
  | 0 => 2
  | 5 | 9 => 256
  | 8 => 2304
  | 14 => 32
  | 15 => 144
  | _ => 4096

/-! ## Execute-stage faults (60_exceptions.md R202, R203) -/

/-- The record of the execute-stage fault an instruction raises in a state, if it raises one: R202's table with R203's
fields, the opcode being the fetched word. -/
def executeFault (op : Word) (i : Instr) (s : State) : Option FaultRecord :=
  match i with
  | .sys _ => some ⟨.decodeError, op, s.pc, 0⟩
  | .ret => if s.sp.val = 0 then some ⟨.stackUnderflow, op, s.pc, 0⟩ else none
  | .call _ => if s.sp.val = 16 then some ⟨.stackOverflow, op, s.pc, 0⟩ else none
  | .ldB _ =>
    if s.i.toNat + 2 > 0xFFF then some ⟨.memoryFault, op, s.pc, BitVec.ofNat 17 (max s.i.toNat 0x1000)⟩ else none
  | .ldMemVx x | .ldVxMem x =>
    if s.i.toNat + x.val > 0xFFF then some ⟨.memoryFault, op, s.pc, BitVec.ofNat 17 (max s.i.toNat 0x1000)⟩ else none
  | .drw _ _ n =>
    if n.val > 0 ∧ s.i.toNat + n.val - 1 > 0xFFF then
      some ⟨.memoryFault, op, s.pc, BitVec.ofNat 17 (max s.i.toNat 0x1000)⟩
    else none
  | .cls | .jp _ | .seByte _ _ | .sneByte _ _ | .seReg _ _ | .ldByte _ _ | .addByte _ _ | .ldReg _ _ | .orReg _ _ => none
  | .andReg _ _ | .xorReg _ _ | .addReg _ _ | .sub _ _ | .shr _ _ | .subn _ _ | .shl _ _ | .sneReg _ _ => none
  | .ldI _ | .jpV0 _ | .rnd _ _ | .skp _ | .sknp _ | .ldVxDt _ | .ldVxK _ | .ldDtVx _ | .ldStVx _ => none
  | .addI _ | .ldF _ => none

/-! ## What an instruction may write and how it ends (10_state.md R22, R38; 40_control_flow.md R100) -/

/-- May the instruction write the register, as its destination or as the flag? -/
def mayWriteReg (i : Instr) (r : RegIdx) : Bool :=
  match i with
  | .ldByte x _ | .addByte x _ | .ldReg x _ | .orReg x _ | .andReg x _ | .xorReg x _ | .rnd x _ => r == x
  | .ldVxDt x | .ldVxK x => r == x
  | .addReg x _ | .sub x _ | .shr x _ | .subn x _ | .shl x _ => r == x || r == 15
  | .drw _ _ _ => r == 15
  | .ldVxMem x => decide (r ≤ x)
  | .sys _ | .cls | .ret | .jp _ | .call _ | .seByte _ _ | .sneByte _ _ | .seReg _ _ | .sneReg _ _ => false
  | .ldI _ | .jpV0 _ | .skp _ | .sknp _ | .ldDtVx _ | .ldStVx _ | .addI _ | .ldF _ | .ldB _ | .ldMemVx _ => false

/-- How a completed instruction leaves `PC`: "exactly one of" these (40_control_flow.md R100). -/
inductive PcEffect where
  | next
  | skip
  | hold
  | target (w : Word)
deriving DecidableEq, Repr

/-- `skip` where the condition holds, `next` otherwise (40_control_flow.md R100). -/
def skipWhen (c : Bool) : PcEffect := if c then .skip else .next

/-- The effect R100 and the instruction's own rule give a completed instruction in a state: the explicit target, the
condition of a skip, and the hold of a key wait while no key is down; every other instruction ends in `next`. -/
def pcEffect (i : Instr) (s : State) : PcEffect :=
  match i with
  | .jp nnn | .call nnn => .target (BitVec.ofNat 16 nnn.toNat)
  | .ret => .target (s.stack[s.sp.val - 1]'(by have := s.sp.isLt; omega))
  | .jpV0 nnn => .target (BitVec.ofNat 16 (nnn.toNat + (s.v[0]).toNat))
  | .seByte x kk => skipWhen (decide (s.v[x] = kk))
  | .sneByte x kk => skipWhen (decide (s.v[x] ≠ kk))
  | .seReg x y => skipWhen (decide (s.v[x] = s.v[y]))
  | .sneReg x y => skipWhen (decide (s.v[x] ≠ s.v[y]))
  | .skp x => skipWhen (s.key[(s.v[x]).toNat % 16]'(Nat.mod_lt _ (by decide)))
  | .sknp x => skipWhen (!s.key[(s.v[x]).toNat % 16]'(Nat.mod_lt _ (by decide)))
  | .ldVxK _ => if ∀ k : Fin 16, s.key[k] = false then .hold else .next
  | .sys _ | .cls | .ldByte _ _ | .addByte _ _ | .ldReg _ _ | .orReg _ _ | .andReg _ _ | .xorReg _ _ => .next
  | .addReg _ _ | .sub _ _ | .shr _ _ | .subn _ _ | .shl _ _ | .ldI _ | .rnd _ _ | .drw _ _ _ => .next
  | .ldVxDt _ | .ldDtVx _ | .ldStVx _ | .addI _ | .ldF _ | .ldB _ | .ldMemVx _ | .ldVxMem _ => .next

/-! ## The shapes of results, in natural numbers -/

/-- The state `t` is `s` with one register holding a value and `PC` advanced by `next`; nothing else differs. -/
abbrev RegWritten (s : State) (x : RegIdx) (value : Nat) (t : State) : Prop :=
  ∃ v : Vector Byte 16, t = { s with v := v, pc := s.pc + 2#16 } ∧
    ∀ r : RegIdx, (v[r]).toNat = if r = x then value else (s.v[r]).toNat

/-- The state `t` is `s` with `VF` holding a flag, register `x` (unless it is `VF`: the flag wins) holding a result, and
`PC` advanced by `next`; nothing else differs. -/
abbrev RegFlagWritten (s : State) (x : RegIdx) (value flag : Nat) (t : State) : Prop :=
  ∃ v : Vector Byte 16, t = { s with v := v, pc := s.pc + 2#16 } ∧
    ∀ r : RegIdx, (v[r]).toNat = if r = 15 then flag else if r = x then value else (s.v[r]).toNat

/-- The state `t` is `s` with `PC` advanced past one more instruction if the condition holds; nothing else differs. -/
abbrev Skipped (s : State) (c : Prop) (t : State) : Prop :=
  (c → t = { s with pc := s.pc + 4#16 }) ∧ (¬c → t = { s with pc := s.pc + 2#16 })

/-- The state `t` is `s` after fault entry with the given record; nothing else differs (60_exceptions.md R205). -/
abbrev FaultEntered (s : State) (kind : FaultKind) (opcode addr : Nat) (t : State) : Prop :=
  t = { s with run := .faulted, fault := ⟨kind, BitVec.ofNat 16 opcode, s.pc, BitVec.ofNat 17 addr⟩ }

/-! ## A sprite as a set of pixels (45_draw.md R160, R162) -/

/-- Is the pixel under a 1 bit of the `n`-row sprite at `(x0, y0)` whose bytes start at `base`? Row `r` lies at
`(y0 + r) mod 32`, column `c` at `(x0 + c) mod 64`, and bit `7 - c` of a row's byte is its column `c`. -/
def spriteBit (m : Memory) (base n x0 y0 : Nat) (y : Fin 32) (x : Fin 64) : Bool :=
  let r := (y.val + 32 - y0) % 32
  let c := (x.val + 64 - x0) % 64
  decide (r < n) && decide (c < 8) && (m.read (base + r)).getLsbD (7 - c)

end Sys2Proof.Machine
end

