-- ==== Sys2Proof/Certificates/Slice0/Obligations.lean ====
section
/-! DEFINITION. The statements for the provers. Each docstring names the rule of spec/ it formalises. -/

open Sys2Proof Sys2Proof.Machine

/-! ## Encoding (30_encoding.md) -/

/-- Decoding the word of a well-formed instruction gives the instruction back, with every operand (R70 to R79). -/
def Obligations.DecodeEncodeRoundTrip : Prop :=
  ∀ i : Instr, i.wellFormed = true → decodeWord (encode i) = .ok i

/-- A word that decodes is the word of the instruction it decodes to, which is well-formed: no bit is ignored (R80). -/
def Obligations.EncodeDecodeRoundTrip : Prop :=
  ∀ (op : Word) (i : Instr), decodeWord op = .ok i → encode i = op ∧ i.wellFormed = true

/-- R74: the decoder agrees with the table of mask and match in which `CLS` and `RET` take precedence over `SYS`, and no
other two rows overlap. -/
def Obligations.DecoderAgreesWithTable : Prop :=
  (∀ op : Word, tableDecode op = (decodeWord op).toOption) ∧
  (rowsFixed ++ rowsMajor.tail ++ rowsXy ++ rowsX).Pairwise (fun a b => ∀ op, ¬(a.selects op = true ∧ b.selects op = true)) ∧
  (∀ a ∈ rowsMajor.head?, ∀ b ∈ rowsMajor.tail ++ rowsXy ++ rowsX, ∀ op, ¬(a.selects op = true ∧ b.selects op = true))

/-- R80: the words of the table of illegal sets, and no others, raise `DecodeError` when the `CPU` runs them; every other
word decodes to an instruction that is not `SYS`, and that instruction is executed. -/
def Obligations.IllegalWordsRaiseDecodeError : Prop :=
  ∀ s : State, s.run = .running → s.pc.toNat ≤ 0xFFE →
    (illegalWord (wordAtPc s).toNat = true →
      ∃ t, cpuStep s = .next t ∧ FaultEntered s .decodeError (wordAtPc s).toNat 0 t) ∧
    (illegalWord (wordAtPc s).toNat = false →
      ∃ i, decodeWord (wordAtPc s) = .ok i ∧ (∀ nnn, i ≠ .sys nnn) ∧ cpuStep s = exec i s)

/-- The counts of R81: how many words of each group `n0`, and how many in all, the decoder reads as an instruction other
than `SYS`. -/
def Obligations.LegalWordCounts : Prop :=
  (∀ g : Fin 16, (List.range 4096).countP (fun k => legalWord (BitVec.ofNat 16 (4096 * g.val + k))) = legalCount g) ∧
  ((List.finRange 16).map
    (fun g => (List.range 4096).countP (fun k => legalWord (BitVec.ofNat 16 (4096 * g.val + k))))).sum = 43954

/-- Words written out from the opcode map (R75 to R79), one or more of each family, decode to their instructions. -/
def Obligations.WrittenOutWordsDecode : Prop :=
  decodeWord 0x600A = .ok (.ldByte 0 10) ∧ decodeWord 0x6105 = .ok (.ldByte 1 5) ∧
  decodeWord 0x8014 = .ok (.addReg 0 1) ∧ decodeWord 0x1200 = .ok (.jp 0x200) ∧
  decodeWord 0x00EE = .ok .ret ∧ decodeWord 0x5230 = .ok (.seReg 2 3) ∧
  decodeWord 0xF265 = .ok (.ldVxMem 2) ∧ decodeWord 0xF315 = .ok (.ldDtVx 3) ∧
  decodeWord 0xE5A1 = .ok (.sknp 5) ∧ decodeWord 0xD125 = .ok (.drw 1 2 5) ∧
  decodeWord 0xC30F = .ok (.rnd 3 0x0F) ∧ decodeWord 0x0123 = .ok (.sys 0x123)

/-! ## The instruction cycle (47_agents_and_arbiter.md) -/

/-- R180, R182: where the bytes at `PC` decode to an instruction and the `CPU` has the next step, the step is exactly the
instruction. A step performs the head of the schedule and removes it; that the order of the agents is a list, and that an
empty list grants the `CPU`, are the model's choices (log 1). -/
def Obligations.StepRunsDecodedInstruction : Prop :=
  ∀ s : State,
    (∀ i : Instr, s.run = .running → s.pc.toNat ≤ 0xFFE → decodeWord (wordAtPc s) = .ok i →
      (s.schedule = [] → step s = exec i s) ∧
      (∀ rest, s.schedule = .cpu :: rest → step s = exec i { s with schedule := rest })) ∧
    (s.schedule = [] → step s = deliver .cpu s) ∧
    (∀ e rest, s.schedule = e :: rest → step s = deliver e { s with schedule := rest })

/-- R181: a fetch beyond the memory raises `MemoryFault` with opcode 0 and the lowest address out of range; otherwise the
fetched word is the big-endian pair at `PC`. -/
def Obligations.FetchChecksBothBytes : Prop :=
  ∀ s : State,
    (s.pc.toNat > 0xFFF → fetch s = .error (BitVec.ofNat 17 s.pc.toNat)) ∧
    (s.pc.toNat = 0xFFF → fetch s = .error 0x1000) ∧
    (s.pc.toNat ≤ 0xFFE → ∃ op, fetch s = .ok op ∧
      op.toNat = 256 * (s.mem.read s.pc.toNat).toNat + (s.mem.read (s.pc.toNat + 1)).toNat) ∧
    (s.run = .running → 0xFFE < s.pc.toNat → ∃ t, cpuStep s = .next t ∧ FaultEntered s .memoryFault 0 (max s.pc.toNat 0x1000) t)

/-- While `RUN = RUNNING` the `CPU` always has an enabled step, in every other run state it has none (R184). That every
step of the machine, whatever its event (R185, R186, R190 to R195), answers a next state is the model's reading of faults
and of frozen engines as next states (log 5). -/
def Obligations.CpuIsNeverStuck : Prop :=
  ∀ s : State, (s.run = .running → ∃ t, cpuStep s = .next t) ∧ (s.run ≠ .running → cpuStep s = .next s) ∧
    ∃ t, step s = .next t

/-- A program that has finished by spinning on a jump to itself is at a fixed point of the `CPU`'s step (R198). -/
def Obligations.SelfJumpIsFixedPoint : Prop :=
  ∀ s : State, s.run = .running → Finished s → cpuStep s = .next s

/-- A finished program never faults: whatever ticks, keys, starts, stops and snapshots come, no step of any length of run
records a fault (R198, R207). -/
def Obligations.FinishedProgramStaysSafe : Prop :=
  ∀ (k : Nat) (s : State), NoFault s → s.run ≠ .faulted → Finished s → (∀ image, Event.reset image ∉ s.schedule) →
    SafeRun k s

/-- The state `withFetchWord` builds runs exactly the instruction of the word at the very next step (log 16). -/
def Obligations.PlacedWordRunsNext : Prop :=
  ∀ (s : State) (w : Word) (i : Instr), s.pc.toNat ≤ 0xFFE → decodeWord w = .ok i →
    step (s.withFetchWord 16 w.toNat) = exec i (s.withFetchWord 16 w.toNat)

/-! ## Faults (60_exceptions.md) -/

/-- R205: when a `CPU` step raises a fault it writes the fault record and `RUN`, and nothing else; the record names the
`PC` of the instruction and holds what R203 says for each kind; and from then on the three engines have no steps (R192).
The last row of R203, a load error, is the record of a reset with an image that does not fit. -/
def Obligations.FaultEntryIsPrecise : Prop :=
  (∀ s t : State, s.run = .running → cpuStep s = .next t → t.run = .faulted →
    t = { s with run := .faulted, fault := t.fault } ∧ t.fault.pc = s.pc ∧
    (0xFFE < s.pc.toNat → t.fault.kind = .memoryFault ∧ t.fault.opcode = 0 ∧ t.fault.addr.toNat = max s.pc.toNat 0x1000) ∧
    (s.pc.toNat ≤ 0xFFE → t.fault.opcode = wordAtPc s ∧
      ((t.fault.kind = .memoryFault ∧ t.fault.addr.toNat = max s.i.toNat 0x1000) ∨
        ((t.fault.kind = .decodeError ∨ t.fault.kind = .stackOverflow ∨ t.fault.kind = .stackUnderflow) ∧
          t.fault.addr = 0))) ∧
    deliver .cpu t = .next t ∧ deliver .dtTick t = .next t ∧ deliver .stTick t = .next t) ∧
  (∀ (s : State) (image : List Byte), 3584 < image.length →
    ∃ t, deliver (.reset image) s = .next t ∧ t.run = .faulted ∧ t.fault = ⟨.loadError, 0x0000, 0x0200, 0x1000⟩)

/-- R207: in `FAULTED`, every event but reset leaves the run state, the fault record and everything a program can name as
they are (only the latch and the answer to a command may change), and reset is the exit. -/
def Obligations.OnlyResetLeavesFaulted : Prop :=
  ∀ s : State, s.run = .faulted →
    (∀ e, (∀ image, e ≠ .reset image) →
      ∃ t, deliver e s = .next t ∧ t = { s with key := t.key, cmdError := t.cmdError }) ∧
    (∀ image, image.length ≤ 3584 → ∃ t, deliver (.reset image) s = .next t ∧ t.run = .idle ∧ NoFault t)

/-- Which instruction raises which execute-stage fault, when, and with which record; with no fault, `RUN` and `FAULT` are
unchanged (R202, R203). The record's opcode is the fetched word (`EncodeDecodeRoundTrip`). -/
def Obligations.ExecuteStageFaults : Prop :=
  ∀ (i : Instr) (s : State),
    (∀ r, executeFault (encode i) i s = some r → exec i s = .next { s with run := .faulted, fault := r }) ∧
    (executeFault (encode i) i s = none → ∃ t, exec i s = .next t ∧ t.run = s.run ∧ t.fault = s.fault)

/-! ## Control flow (40_control_flow.md) -/

/-- R101: `SYS addr` decodes from `0nnn` outside `CLS` and `RET`, and always raises `DecodeError`. -/
def Obligations.SysRaisesDecodeError : Prop :=
  ∀ (nnn : Addr12) (s : State),
    (nnn ≠ 0x0E0 → nnn ≠ 0x0EE → decodeWord (BitVec.ofNat 16 nnn.toNat) = .ok (.sys nnn)) ∧
    ∃ t, exec (.sys nnn) s = .next t ∧ FaultEntered s .decodeError nnn.toNat 0 t

/-- R102: `RET` pops the return address into `PC`, keeps the slot, and raises `StackUnderflow` on an empty stack. -/
def Obligations.ReturnPopsAddress : Prop :=
  ∀ s : State, decodeWord 0x00EE = .ok .ret ∧
    (∀ k : Fin 16, s.sp = k.succ → exec .ret s = .next { s with pc := s.stack[k], sp := k.castSucc }) ∧
    (s.sp = 0 → ∃ t, exec .ret s = .next t ∧ FaultEntered s .stackUnderflow 0x00EE 0 t)

/-- R103: `JP addr` sets `PC` to the zero-extended address and changes nothing else. -/
def Obligations.JumpSetsPc : Prop :=
  ∀ (nnn : Addr12) (s : State), decodeWord (BitVec.ofNat 16 (0x1000 + nnn.toNat)) = .ok (.jp nnn) ∧
    exec (.jp nnn) s = .next { s with pc := BitVec.ofNat 16 nnn.toNat }

/-- R104: `CALL addr` pushes the address after itself and jumps; sixteen nested calls are legal, the seventeenth raises
`StackOverflow`. -/
def Obligations.CallPushesReturnAddress : Prop :=
  ∀ (nnn : Addr12) (s : State), decodeWord (BitVec.ofNat 16 (0x2000 + nnn.toNat)) = .ok (.call nnn) ∧
    (∀ k : Fin 16, s.sp = k.castSucc → ∃ stack : Vector Word 16,
      exec (.call nnn) s = .next { s with pc := BitVec.ofNat 16 nnn.toNat, sp := k.succ, stack := stack } ∧
      ∀ j : Fin 16, stack[j] = if j = k then s.pc + 2#16 else s.stack[j]) ∧
    (s.sp = Fin.last 16 → ∃ t, exec (.call nnn) s = .next t ∧ FaultEntered s .stackOverflow (0x2000 + nnn.toNat) 0 t)

/-- A `CALL` whose target holds a `RET`: after the two steps `PC` is the address immediately after the `CALL`, `SP` is
unchanged from before the pair, and of the rest only the stack slot has changed, which keeps that address (R104, R102). -/
def Obligations.CallThenReturnComesBack : Prop :=
  ∀ (s : State) (nnn : Addr12), s.run = .running → s.pc.toNat ≤ 0xFFE → (wordAtPc s).toNat = 0x2000 + nnn.toNat →
    nnn.toNat ≤ 0xFFE → s.mem.read nnn.toNat = 0x00 → s.mem.read (nnn.toNat + 1) = 0xEE → s.sp.val < 16 →
    ∃ t u, cpuStep s = .next t ∧ cpuStep t = .next u ∧ u = { s with pc := s.pc + 2#16, stack := u.stack } ∧
      ∀ k : Fin 16, u.stack[k] = if k.val = s.sp.val then s.pc + 2#16 else s.stack[k]

/-- R105, R106: `SE Vx, byte` and `SNE Vx, byte` skip one instruction on equality and on inequality. -/
def Obligations.SkipOnByte : Prop :=
  ∀ (x : RegIdx) (kk : Byte) (s : State),
    decodeWord (BitVec.ofNat 16 (0x3000 + 256 * x.val + kk.toNat)) = .ok (.seByte x kk) ∧
    decodeWord (BitVec.ofNat 16 (0x4000 + 256 * x.val + kk.toNat)) = .ok (.sneByte x kk) ∧
    (∃ t, exec (.seByte x kk) s = .next t ∧ Skipped s (s.v[x] = kk) t) ∧
    (∃ t, exec (.sneByte x kk) s = .next t ∧ Skipped s (s.v[x] ≠ kk) t)

/-- R107, R108: `SE Vx, Vy` and `SNE Vx, Vy` skip one instruction on equality and on inequality. -/
def Obligations.SkipOnRegister : Prop :=
  ∀ (x y : RegIdx) (s : State),
    decodeWord (BitVec.ofNat 16 (0x5000 + 256 * x.val + 16 * y.val)) = .ok (.seReg x y) ∧
    decodeWord (BitVec.ofNat 16 (0x9000 + 256 * x.val + 16 * y.val)) = .ok (.sneReg x y) ∧
    (∃ t, exec (.seReg x y) s = .next t ∧ Skipped s (s.v[x] = s.v[y]) t) ∧
    (∃ t, exec (.sneReg x y) s = .next t ∧ Skipped s (s.v[x] ≠ s.v[y]) t)

/-- R109: `JP V0, addr` jumps to `nnn + V0`, unmasked; a result above 0x0FFE makes the next fetch raise `MemoryFault`. -/
def Obligations.IndexedJump : Prop :=
  ∀ (nnn : Addr12) (s : State), decodeWord (BitVec.ofNat 16 (0xB000 + nnn.toNat)) = .ok (.jpV0 nnn) ∧
    ∃ w : Word, w.toNat = nnn.toNat + (s.v[0]).toNat ∧ exec (.jpV0 nnn) s = .next { s with pc := w } ∧
      (s.run = .running → 0xFFE < w.toNat →
        ∃ t, cpuStep { s with pc := w } = .next t ∧ FaultEntered { s with pc := w } .memoryFault 0 (max w.toNat 0x1000) t)

/-- Every completed instruction ends in exactly the `PC` effect R100 gives it, a skip under its own condition, a jump at
its own target and a hold only while no key is down; a faulting instruction leaves `PC` (R100 to R109, R151 to R153). -/
def Obligations.PcEffects : Prop :=
  ∀ (i : Instr) (s : State), ∃ t, exec i s = .next t ∧
    (executeFault (encode i) i s ≠ none → t.pc = s.pc) ∧
    (executeFault (encode i) i s = none →
      match pcEffect i s with
      | .next => t.pc = s.pc + 2#16
      | .skip => t.pc = s.pc + 4#16
      | .hold => t = s
      | .target w => t.pc = w)

/-! ## Register load and ALU (41_register_alu.md) -/

/-- R111, R112: `LD Vx, byte`, and `ADD Vx, byte` modulo 256 with `VF` not written as a flag. -/
def Obligations.LoadAndAddByte : Prop :=
  ∀ (x : RegIdx) (kk : Byte) (s : State),
    decodeWord (BitVec.ofNat 16 (0x6000 + 256 * x.val + kk.toNat)) = .ok (.ldByte x kk) ∧
    decodeWord (BitVec.ofNat 16 (0x7000 + 256 * x.val + kk.toNat)) = .ok (.addByte x kk) ∧
    (∃ t, exec (.ldByte x kk) s = .next t ∧ RegWritten s x kk.toNat t) ∧
    (∃ t, exec (.addByte x kk) s = .next t ∧ RegWritten s x (((s.v[x]).toNat + kk.toNat) % 256) t)

/-- R113 to R116: `LD Vx, Vy` and the three bitwise operations, which leave `VF` alone unless it is the destination. -/
def Obligations.MoveAndLogic : Prop :=
  ∀ (x y : RegIdx) (s : State),
    decodeWord (BitVec.ofNat 16 (0x8000 + 256 * x.val + 16 * y.val)) = .ok (.ldReg x y) ∧
    decodeWord (BitVec.ofNat 16 (0x8001 + 256 * x.val + 16 * y.val)) = .ok (.orReg x y) ∧
    decodeWord (BitVec.ofNat 16 (0x8002 + 256 * x.val + 16 * y.val)) = .ok (.andReg x y) ∧
    decodeWord (BitVec.ofNat 16 (0x8003 + 256 * x.val + 16 * y.val)) = .ok (.xorReg x y) ∧
    (∃ t, exec (.ldReg x y) s = .next t ∧ RegWritten s x (s.v[y]).toNat t) ∧
    (∃ t, exec (.orReg x y) s = .next t ∧ RegWritten s x ((s.v[x]).toNat ||| (s.v[y]).toNat) t) ∧
    (∃ t, exec (.andReg x y) s = .next t ∧ RegWritten s x ((s.v[x]).toNat &&& (s.v[y]).toNat) t) ∧
    (∃ t, exec (.xorReg x y) s = .next t ∧ RegWritten s x ((s.v[x]).toNat ^^^ (s.v[y]).toNat) t)

/-- R117: `ADD Vx, Vy` wraps modulo 256 and sets `VF` to the carry, written last. -/
def Obligations.AddSetsCarry : Prop :=
  ∀ (x y : RegIdx) (s : State),
    decodeWord (BitVec.ofNat 16 (0x8004 + 256 * x.val + 16 * y.val)) = .ok (.addReg x y) ∧
    ∃ t, exec (.addReg x y) s = .next t ∧
      RegFlagWritten s x (((s.v[x]).toNat + (s.v[y]).toNat) % 256)
        (if (s.v[x]).toNat + (s.v[y]).toNat > 255 then 1 else 0) t

/-- R118, R120: `SUB` and `SUBN` wrap modulo 256 and set `VF` to NOT borrow, 1 on equal operands, written last. -/
def Obligations.SubtractSetsNoBorrow : Prop :=
  ∀ (x y : RegIdx) (s : State),
    decodeWord (BitVec.ofNat 16 (0x8005 + 256 * x.val + 16 * y.val)) = .ok (.sub x y) ∧
    decodeWord (BitVec.ofNat 16 (0x8007 + 256 * x.val + 16 * y.val)) = .ok (.subn x y) ∧
    (∃ t, exec (.sub x y) s = .next t ∧
      RegFlagWritten s x (if (s.v[x]).toNat ≥ (s.v[y]).toNat then (s.v[x]).toNat - (s.v[y]).toNat
        else (s.v[x]).toNat + 256 - (s.v[y]).toNat) (if (s.v[x]).toNat ≥ (s.v[y]).toNat then 1 else 0) t) ∧
    (∃ t, exec (.subn x y) s = .next t ∧
      RegFlagWritten s x (if (s.v[y]).toNat ≥ (s.v[x]).toNat then (s.v[y]).toNat - (s.v[x]).toNat
        else (s.v[y]).toNat + 256 - (s.v[x]).toNat) (if (s.v[y]).toNat ≥ (s.v[x]).toNat then 1 else 0) t)

/-- R119, R121: the shifts act on `V[x]` in place whatever `y` is, and set `VF` to the bit shifted out, written last. -/
def Obligations.ShiftsDropOneBit : Prop :=
  ∀ (x y : RegIdx) (s : State),
    decodeWord (BitVec.ofNat 16 (0x8006 + 256 * x.val + 16 * y.val)) = .ok (.shr x y) ∧
    decodeWord (BitVec.ofNat 16 (0x800E + 256 * x.val + 16 * y.val)) = .ok (.shl x y) ∧
    (∃ t, exec (.shr x y) s = .next t ∧ RegFlagWritten s x ((s.v[x]).toNat / 2) ((s.v[x]).toNat % 2) t) ∧
    (∃ t, exec (.shl x y) s = .next t ∧
      RegFlagWritten s x (2 * (s.v[x]).toNat % 256) ((s.v[x]).toNat / 128) t)

/-- No instruction writes a register that is neither its destination nor, for the six flag-writing instructions, `VF`
(10_state.md R21, R22, R38). -/
def Obligations.RegistersChangeOnlyByDestination : Prop :=
  ∀ (i : Instr) (s t : State) (r : RegIdx), exec i s = .next t → mayWriteReg i r = false → t.v[r] = s.v[r]

/-! ## Memory and address register (42_memory_address.md) -/

/-- R131, R132, R133: the three writes of `I`; the addition wraps at 65536 and leaves `VF`; the font address is that of
the glyph the low nibble names. -/
def Obligations.AddressRegisterWrites : Prop :=
  ∀ (nnn : Addr12) (x : RegIdx) (s : State),
    decodeWord (BitVec.ofNat 16 (0xA000 + nnn.toNat)) = .ok (.ldI nnn) ∧
    decodeWord (BitVec.ofNat 16 (0xF01E + 256 * x.val)) = .ok (.addI x) ∧
    decodeWord (BitVec.ofNat 16 (0xF029 + 256 * x.val)) = .ok (.ldF x) ∧
    exec (.ldI nnn) s = .next { s with i := BitVec.ofNat 16 nnn.toNat, pc := s.pc + 2#16 } ∧
    exec (.addI x) s =
      .next { s with i := BitVec.ofNat 16 ((s.i.toNat + (s.v[x]).toNat) % 65536), pc := s.pc + 2#16 } ∧
    exec (.ldF x) s = .next { s with i := BitVec.ofNat 16 (5 * ((s.v[x]).toNat % 16)), pc := s.pc + 2#16 }

/-- R134: `LD B, Vx` stores the three decimal digits at `I`, `I+1`, `I+2` and leaves every other byte, or raises
`MemoryFault` with nothing stored. -/
def Obligations.BcdStoresDigits : Prop :=
  ∀ (x : RegIdx) (s : State), decodeWord (BitVec.ofNat 16 (0xF033 + 256 * x.val)) = .ok (.ldB x) ∧
    (s.i.toNat + 2 ≤ 0xFFF → ∃ m : Memory, exec (.ldB x) s = .next { s with mem := m, pc := s.pc + 2#16 } ∧
      (m.read s.i.toNat).toNat = (s.v[x]).toNat / 100 ∧
      (m.read (s.i.toNat + 1)).toNat = (s.v[x]).toNat / 10 % 10 ∧
      (m.read (s.i.toNat + 2)).toNat = (s.v[x]).toNat % 10 ∧
      ∀ a, (a < s.i.toNat ∨ s.i.toNat + 2 < a) → m.read a = s.mem.read a) ∧
    (s.i.toNat + 2 > 0xFFF → ∃ t, exec (.ldB x) s = .next t ∧
      FaultEntered s .memoryFault (0xF033 + 256 * x.val) (max s.i.toNat 0x1000) t)

/-- R135: `LD [I], Vx` stores `V[0]` to `V[x]` at ascending addresses from `I` and leaves every other byte and `I`, or
raises `MemoryFault` with nothing stored. -/
def Obligations.BlockStore : Prop :=
  ∀ (x : RegIdx) (s : State), decodeWord (BitVec.ofNat 16 (0xF055 + 256 * x.val)) = .ok (.ldMemVx x) ∧
    (s.i.toNat + x.val ≤ 0xFFF → ∃ m : Memory, exec (.ldMemVx x) s = .next { s with mem := m, pc := s.pc + 2#16 } ∧
      (∀ k : RegIdx, k ≤ x → m.read (s.i.toNat + k.val) = s.v[k]) ∧
      ∀ a, (a < s.i.toNat ∨ s.i.toNat + x.val < a) → m.read a = s.mem.read a) ∧
    (s.i.toNat + x.val > 0xFFF → ∃ t, exec (.ldMemVx x) s = .next t ∧
      FaultEntered s .memoryFault (0xF055 + 256 * x.val) (max s.i.toNat 0x1000) t)

/-- R136: `LD Vx, [I]` loads `V[0]` to `V[x]` from ascending addresses from `I` and leaves the other registers, memory and
`I`, or raises `MemoryFault` with nothing loaded. -/
def Obligations.BlockLoad : Prop :=
  ∀ (x : RegIdx) (s : State), decodeWord (BitVec.ofNat 16 (0xF065 + 256 * x.val)) = .ok (.ldVxMem x) ∧
    (s.i.toNat + x.val ≤ 0xFFF → ∃ v : Vector Byte 16,
      exec (.ldVxMem x) s = .next { s with v := v, pc := s.pc + 2#16 } ∧
      ∀ r : RegIdx, v[r] = if r ≤ x then s.mem.read (s.i.toNat + r.val) else s.v[r]) ∧
    (s.i.toNat + x.val > 0xFFF → ∃ t, exec (.ldVxMem x) s = .next t ∧
      FaultEntered s .memoryFault (0xF065 + 256 * x.val) (max s.i.toNat 0x1000) t)

/-- A block loaded back from where it was stored is the block: after `LD [I], Vx`, `LD Vx, [I]` changes `PC` alone, and
the stored bytes are what a later load of the same base gives (20_memory.md R59, R60). -/
def Obligations.LoadAfterStoreGivesBlock : Prop :=
  ∀ (x z : RegIdx) (s : State) (w : Vector Byte 16), s.i.toNat + x.val ≤ 0xFFF → z ≤ x →
    ∃ t u, exec (.ldMemVx x) s = .next t ∧ exec (.ldVxMem z) { t with v := w } = .next u ∧
      ∀ r : RegIdx, u.v[r] = if r ≤ z then s.v[r] else w[r]

/-- Self-modifying code: a block store over the next instruction's bytes is seen by the very next fetch, which runs the
stored opcode (20_memory.md R63, 70_reset_and_hazards.md R241). -/
def Obligations.StoreIsSeenByNextFetch : Prop :=
  ∀ (s : State) (x : RegIdx) (i : Instr), s.run = .running → 1 ≤ x.val → (wordAtPc s).toNat = 0xF055 + 256 * x.val →
    s.pc.toNat + 2 + x.val ≤ 0xFFF → s.i.toNat = s.pc.toNat + 2 → decodeWord (wordOfBytes s.v[0] s.v[1]) = .ok i →
    ∃ t, cpuStep s = .next t ∧ t.pc = s.pc + 2#16 ∧ wordAtPc t = wordOfBytes s.v[0] s.v[1] ∧ cpuStep t = exec i t

/-! ## Timers (43_timer_instructions.md, 47_agents_and_arbiter.md) -/

/-- R141, R142, R143: the three timer moves. -/
def Obligations.TimerMoves : Prop :=
  ∀ (x : RegIdx) (s : State),
    decodeWord (BitVec.ofNat 16 (0xF007 + 256 * x.val)) = .ok (.ldVxDt x) ∧
    decodeWord (BitVec.ofNat 16 (0xF015 + 256 * x.val)) = .ok (.ldDtVx x) ∧
    decodeWord (BitVec.ofNat 16 (0xF018 + 256 * x.val)) = .ok (.ldStVx x) ∧
    (∃ t, exec (.ldVxDt x) s = .next t ∧ RegWritten s x s.dt.toNat t) ∧
    exec (.ldDtVx x) s = .next { s with dt := s.v[x], pc := s.pc + 2#16 } ∧
    exec (.ldStVx x) s = .next { s with st := s.v[x], pc := s.pc + 2#16 }

/-- R185, R186: a tick of either engine lowers its own counter by one, clamped at zero, touches nothing else, and happens
only while `RUN = RUNNING`. -/
def Obligations.TimerTicks : Prop :=
  ∀ s : State,
    (s.run = .running → ∃ b : Byte, b.toNat = s.dt.toNat - 1 ∧ deliver .dtTick s = .next { s with dt := b }) ∧
    (s.run = .running → ∃ b : Byte, b.toNat = s.st.toNat - 1 ∧ deliver .stTick s = .next { s with st := b }) ∧
    (s.run ≠ .running → deliver .dtTick s = .next s ∧ deliver .stTick s = .next s)

/-- `DT` is "monotonically non-increasing except when explicitly set by an instruction" (10_state.md R27): a step of any
agent that raises it is a step of the `CPU` that ran `LD DT, Vx`. -/
def Obligations.DelayTimerRisesOnlyByLoad : Prop :=
  ∀ s t : State, step s = .next t → s.dt.toNat < t.dt.toNat →
    s.run = .running ∧ s.schedule.head?.getD .cpu = .cpu ∧ s.pc.toNat ≤ 0xFFE ∧
      ∃ x, decodeWord (wordAtPc s) = .ok (.ldDtVx x) ∧ t.dt = s.v[x]

/-- "No instruction reads `ST`" (10_state.md R28): two states that differ in `ST` alone lead to states that differ in `ST`
alone, or not at all after `LD ST, Vx`. -/
def Obligations.SoundTimerIsNeverRead : Prop :=
  ∀ (i : Instr) (s : State) (b : Byte), ∃ t, exec i s = .next t ∧
    ((∀ x, i ≠ .ldStVx x) → t.st = s.st ∧ exec i { s with st := b } = .next { t with st := b }) ∧
    ((∃ x, i = .ldStVx x) → exec i { s with st := b } = .next t)

/-- A delay-timer tick may be exchanged with an instruction cycle that completes without a fault and is neither
`LD Vx, DT` nor `LD DT, Vx`: both orders give the same state (R185, R187, R188). -/
def Obligations.TickCommutesWithInstruction : Prop :=
  ∀ s t : State, cpuStep s = .next t → t.run = s.run →
    (∀ x, decodeWord (wordAtPc s) ≠ .ok (.ldVxDt x) ∧ decodeWord (wordAtPc s) ≠ .ok (.ldDtVx x)) →
    cpuStep (dtTick s) = .next (dtTick t)

/-! ## Keys (44_key_instructions.md) -/

/-- R151, R152: `SKP` and `SKNP` skip on the key the low nibble of `V[x]` names. -/
def Obligations.SkipOnKey : Prop :=
  ∀ (x k : Fin 16) (s : State), k.val = (s.v[x]).toNat % 16 →
    decodeWord (BitVec.ofNat 16 (0xE09E + 256 * x.val)) = .ok (.skp x) ∧
    decodeWord (BitVec.ofNat 16 (0xE0A1 + 256 * x.val)) = .ok (.sknp x) ∧
    (∃ t, exec (.skp x) s = .next t ∧ Skipped s (s.key[k] = true) t) ∧
    (∃ t, exec (.sknp x) s = .next t ∧ Skipped s (s.key[k] = false) t)

/-- R153: `LD Vx, K` takes the least pressed key; while none is pressed the step changes nothing. -/
def Obligations.KeyWait : Prop :=
  ∀ (x : RegIdx) (s : State), decodeWord (BitVec.ofNat 16 (0xF00A + 256 * x.val)) = .ok (.ldVxK x) ∧
    (∀ k : Fin 16, s.key[k] = true → (∀ j : Fin 16, j < k → s.key[j] = false) →
      ∃ t, exec (.ldVxK x) s = .next t ∧ RegWritten s x k.val t) ∧
    ((∀ k : Fin 16, s.key[k] = false) → exec (.ldVxK x) s = .next s)

/-- A wait is ended by a key press: at `LD Vx, K` with no key down, any number of `CPU` grants and timer ticks leave the
state but for the timers, which the ticks lower, and the schedule; without ticks they leave all of it; and the grant after
`setKey(k, true)` loads `k` and goes on (R153, R185, R186, R193; the list of grants is log 1). -/
def Obligations.KeyWaitEndsWithKey : Prop :=
  ∀ (s : State) (x k : Fin 16) (grants rest : List Event), s.run = .running → s.pc.toNat ≤ 0xFFE →
    decodeWord (wordAtPc s) = .ok (.ldVxK x) → (∀ j : Fin 16, s.key[j] = false) →
    (∀ e ∈ grants, e = .cpu ∨ e = .dtTick ∨ e = .stTick) → s.schedule = grants ++ .setKey k true :: .cpu :: rest →
    ∃ t u, core.run grants.length s = .next t ∧ core.run (grants.length + 2) s = .next u ∧
      t = { s with dt := t.dt, st := t.st, schedule := .setKey k true :: .cpu :: rest } ∧
      t.dt.toNat = s.dt.toNat - grants.count .dtTick ∧ t.st.toNat = s.st.toNat - grants.count .stTick ∧
      (∀ j : Fin 16, u.key[j] = decide (j = k)) ∧
      RegWritten { t with key := u.key, schedule := rest } x k.val u

/-! ## Framebuffer (45_draw.md) -/

/-- R161: `CLS` clears every pixel and changes nothing else but `PC`. -/
def Obligations.ClearScreen : Prop :=
  ∀ s : State, decodeWord 0x00E0 = .ok .cls ∧
    ∃ fb : Vector (Vector Bool 64) 32, exec .cls s = .next { s with fb := fb, pc := s.pc + 2#16 } ∧
      ∀ (y : Fin 32) (x : Fin 64), (fb[y])[x] = false

/-- R162: `DRW` toggles exactly the pixels under the sprite's 1 bits, wrapping on both axes, and sets `VF` to 1 iff one of
them was lit before; a sprite byte above 0xFFF raises `MemoryFault` with no pixel changed; `n = 0` draws nothing. -/
def Obligations.DrawTogglesSprite : Prop :=
  ∀ (x y n : Fin 16) (s : State),
    decodeWord (BitVec.ofNat 16 (0xD000 + 256 * x.val + 16 * y.val + n.val)) = .ok (.drw x y n) ∧
    (n.val = 0 ∨ s.i.toNat + n.val - 1 ≤ 0xFFF → ∃ (fb : Vector (Vector Bool 64) 32) (v : Vector Byte 16),
      exec (.drw x y n) s = .next { s with fb := fb, v := v, pc := s.pc + 2#16 } ∧
      (∀ (yy : Fin 32) (xx : Fin 64), (fb[yy])[xx] = ((s.fb[yy])[xx] ^^
        spriteBit s.mem s.i.toNat n.val ((s.v[x]).toNat % 64) ((s.v[y]).toNat % 32) yy xx)) ∧
      (∀ r : RegIdx, r ≠ 15 → v[r] = s.v[r]) ∧
      (v[15] = 1 ∨ v[15] = 0) ∧
      (v[15] = 1 ↔ ∃ (yy : Fin 32) (xx : Fin 64), (s.fb[yy])[xx] = true ∧
        spriteBit s.mem s.i.toNat n.val ((s.v[x]).toNat % 64) ((s.v[y]).toNat % 32) yy xx = true)) ∧
    (n.val > 0 → s.i.toNat + n.val - 1 > 0xFFF → ∃ t, exec (.drw x y n) s = .next t ∧
      FaultEntered s .memoryFault (0xD000 + 256 * x.val + 16 * y.val + n.val) (max s.i.toNat 0x1000) t)

/-- R163: a second draw of the same sprite at the same origin restores the framebuffer, and its flag is 1 iff a pixel
under a 1 bit was 0 before the first draw. -/
def Obligations.DrawTwiceRestores : Prop :=
  ∀ (x y n : Fin 16) (s t : State), n.val = 0 ∨ s.i.toNat + n.val - 1 ≤ 0xFFF → exec (.drw x y n) s = .next t →
    (t.v[x]).toNat % 64 = (s.v[x]).toNat % 64 → (t.v[y]).toNat % 32 = (s.v[y]).toNat % 32 →
    ∃ u, exec (.drw x y n) t = .next u ∧ u.fb = s.fb ∧ (u.v[15] = 1 ∨ u.v[15] = 0) ∧
      (u.v[15] = 1 ↔ ∃ (yy : Fin 32) (xx : Fin 64), (s.fb[yy])[xx] = false ∧
        spriteBit s.mem s.i.toNat n.val ((s.v[x]).toNat % 64) ((s.v[y]).toNat % 32) yy xx = true)

/-! ## Random (46_random.md) -/

/-- R171: `RND` loads the byte drawn, masked with `kk` only under `RND_MASKED`; the draw is the byte the port shows, any
byte, or a value nothing constrains where the inputs say none. -/
def Obligations.RandomByte : Prop :=
  ∀ (x : RegIdx) (kk : Byte) (s : State),
    decodeWord (BitVec.ofNat 16 (0xC000 + 256 * x.val + kk.toNat)) = .ok (.rnd x kk) ∧
    (∀ (r : Byte) (l : List Byte), ∃ t, exec (.rnd x kk) { s with rndIn := r :: l } = .next t ∧
      RegWritten { s with rndIn := l } x (if s.cfg.rndMasked then (r &&& kk).toNat else r.toNat) t) ∧
    (s.rndIn = [] → ∃ (r : Byte) (k : Nat) (t : State), exec (.rnd x kk) s = .next t ∧
      RegWritten { s with draws := k } x (if s.cfg.rndMasked then (r &&& kk).toNat else r.toNat) t)

/-! ## Who writes what (10_state.md R38) -/

/-- An instruction not listed for an element does not write it: `I`, `SP` and `Stack`, `DT`, `ST`, `MEM`, `FB` change only
by the instructions named, `KEY` and the model's own fields but the draws by none. -/
def Obligations.OnlyListedInstructionsWrite : Prop :=
  ∀ (i : Instr) (s t : State), exec i s = .next t →
    (t.i ≠ s.i → (∃ nnn, i = .ldI nnn) ∨ (∃ x, i = .addI x ∨ i = .ldF x)) ∧
    (t.sp ≠ s.sp → i = .ret ∨ ∃ nnn, i = .call nnn) ∧
    (t.stack ≠ s.stack → ∃ nnn, i = .call nnn) ∧
    (t.dt ≠ s.dt → ∃ x, i = .ldDtVx x) ∧
    (t.st ≠ s.st → ∃ x, i = .ldStVx x) ∧
    (t.mem ≠ s.mem → ∃ x, i = .ldB x ∨ i = .ldMemVx x) ∧
    (t.fb ≠ s.fb → i = .cls ∨ ∃ x y n, i = .drw x y n) ∧
    (t.rndIn ≠ s.rndIn ∨ t.draws ≠ s.draws → ∃ x kk, i = .rnd x kk) ∧
    t.key = s.key ∧ t.cfg = s.cfg ∧ t.schedule = s.schedule ∧ t.cmdError = s.cmdError ∧
    (t.run ≠ s.run ∨ t.fault ≠ s.fault → executeFault (encode i) i s ≠ none)

/-! ## The host (47_agents_and_arbiter.md) -/

/-- R190, R191: `start` and `stop` in each run state, and that the three engines have no steps after a `stop`. -/
def Obligations.StartAndStop : Prop :=
  ∀ s : State,
    (s.run = .idle → ∃ t, deliver .start s = .next t ∧ t.cmdError = false ∧
      t = { s with run := .running, cmdError := t.cmdError }) ∧
    (s.run ≠ .idle → ∃ t, deliver .start s = .next t ∧ t.cmdError = true ∧ t = { s with cmdError := t.cmdError }) ∧
    (s.run = .running → ∃ t, deliver .stop s = .next t ∧ t.cmdError = false ∧
      t = { s with run := .stopped, cmdError := t.cmdError } ∧
      deliver .cpu t = .next t ∧ deliver .dtTick t = .next t ∧ deliver .stTick t = .next t) ∧
    (s.run = .idle → ∃ t, deliver .stop s = .next t ∧ t.cmdError = true ∧ t = { s with cmdError := t.cmdError }) ∧
    (s.run = .stopped ∨ s.run = .faulted →
      ∃ t, deliver .stop s = .next t ∧ t.cmdError = false ∧ t = { s with cmdError := t.cmdError })

/-- R193, R194: `setKey` writes one key in every run state and nothing else; a snapshot reads `FB` and changes nothing. -/
def Obligations.SetKeyAndSnapshot : Prop :=
  ∀ (s : State) (id : Fin 16) (pressed : Bool),
    (∃ key : Vector Bool 16, deliver (.setKey id pressed) s = .next { s with key := key } ∧
      ∀ k : Fin 16, key[k] = if k = id then pressed else s.key[k]) ∧
    deliver .snapshot s = .next s ∧
    (∀ (y : Fin 32) (x : Fin 64), (fbOut s).getLsbD (64 * y.val + x.val) = (s.fb[y])[x])

/-- The arbiter grants every request once and loses none; in each cycle in which a request is held or arrives it grants
one of the earliest rank among them, and the others stay held in the order of their ranks; and the ranks put `DTENG` before
`STENG`, `STENG` before the host, the host before the `CPU` (R189; the order inside the host is log 15). -/
def Obligations.ArbiterLosesNoRequest : Prop :=
  (∀ (held : List Event) (arrivals : List (List Event)),
    (grantOrder held arrivals).Perm (held ++ arrivals.flatten)) ∧
  (∀ (held arrivals : List Event) (later : List (List Event)),
    held.Pairwise (fun a b => a.rank ≤ b.rank) → held ++ arrivals ≠ [] →
    ∃ e held', grantOrder held (arrivals :: later) = e :: grantOrder held' later ∧
      (e :: held').Perm (held ++ arrivals) ∧ (e :: held').Pairwise (fun a b => a.rank ≤ b.rank)) ∧
  (∀ held : List Event, grantOrder held [] = held) ∧
  (∀ e : Event, (e = .dtTick ∨ Event.rank .dtTick < e.rank) ∧
    (e = .dtTick ∨ e = .stTick ∨ Event.rank .stTick < e.rank) ∧ (e = .cpu ∨ e.rank < Event.rank .cpu))

/-! ## Reset (70_reset_and_hazards.md, 10_state.md R36) -/

/-- R230, R36: reset with an image that fits, in any run state, leaves every element at its reset value: the font, the
image at 0x200, zeros elsewhere in memory, and the core `IDLE`; one that does not fit leaves the load-error state. -/
def Obligations.ResetLoadsImage : Prop :=
  ∀ (s : State) (image : List Byte), ∃ t, deliver (.reset image) s = .next t ∧
    (image.length ≤ 3584 →
      (∀ r : RegIdx, t.v[r] = 0) ∧ t.i = 0 ∧ t.pc = 0x200 ∧ t.sp = 0 ∧ (∀ k : Fin 16, t.stack[k] = 0) ∧
      t.dt = 0 ∧ t.st = 0 ∧ (∀ (y : Fin 32) (x : Fin 64), (t.fb[y])[x] = false) ∧ (∀ k : Fin 16, t.key[k] = false) ∧
      t.run = .idle ∧ t.fault = ⟨.none, 0, 0, 0⟩ ∧
      (∀ k : Fin 80, t.mem.read k.val = s.cfg.font[k]) ∧
      (∀ a, 80 ≤ a → a < 0x200 → t.mem.read a = 0) ∧
      (∀ (k : Nat) (h : k < image.length), t.mem.read (0x200 + k) = image[k]) ∧
      (∀ a, 0x200 + image.length ≤ a → t.mem.read a = 0)) ∧
    (3584 < image.length → t.run = .faulted ∧ t.fault = ⟨.loadError, 0x0000, 0x0200, 0x1000⟩)

/-- R232: an image that does not fit is not loaded; every element takes the value it has after a reset with no image,
except the load-error record and `RUN = FAULTED`, and the core cannot be started. -/
def Obligations.OversizedImageIsLoadError : Prop :=
  ∀ (s : State) (image : List Byte), 3584 < image.length →
    ∃ t u, deliver (.reset image) s = .next t ∧ deliver (.reset []) s = .next u ∧
      t = { u with run := .faulted, fault := ⟨.loadError, 0x0000, 0x0200, 0x1000⟩ } ∧
      ∃ w, deliver .start t = .next w ∧ w.run = .faulted

/-- `State.reset` is the state R36 tabulates for the empty image under the default parameters (logs 3 and 10), element by
element and byte by byte; a reset with no image leaves it as it is; and the model's own fields hold the values of logs 1
to 4: no step to come, no random byte supplied, no free draw taken, the default parameters, no `cmd_error`. -/
def Obligations.ResetStateValues : Prop :=
  State.reset.pc = 0x200 ∧ State.reset.i = 0 ∧ State.reset.sp = 0 ∧ State.reset.dt = 0 ∧ State.reset.st = 0 ∧
  (∀ r : RegIdx, State.reset.v[r] = 0) ∧ (∀ k : Fin 16, State.reset.stack[k] = 0 ∧ State.reset.key[k] = false) ∧
  (∀ (y : Fin 32) (x : Fin 64), (State.reset.fb[y])[x] = false) ∧
  State.reset.run = .idle ∧ State.reset.fault = ⟨.none, 0, 0, 0⟩ ∧
  (∀ k : Fin 80, State.reset.mem.read k.val = defaultFont[k]) ∧
  State.reset.mem.readBytes 0x000 5 = [0xF0, 0x90, 0x90, 0x90, 0xF0] ∧
  State.reset.mem.readBytes 0x04B 5 = [0xF0, 0x80, 0xF0, 0x80, 0x80] ∧
  (∀ a, 0x050 ≤ a → a ≤ 0x1FF → State.reset.mem.read a = 0) ∧ (∀ a, 0x200 ≤ a → State.reset.mem.read a = 0) ∧
  State.reset.schedule = [] ∧ State.reset.rndIn = [] ∧ State.reset.draws = 0 ∧
  State.reset.cfg.font = defaultFont ∧ State.reset.cfg.rndMasked = false ∧ State.reset.cmdError = false ∧
  deliver (.reset []) State.reset = .next State.reset

/-- A run from reset through a load and a `start`: after the two host steps the first instruction is fetched from 0x200
(R233), whatever the image. -/
def Obligations.StartedProgramRunsFrom0x200 : Prop :=
  ∀ (s : State) (image : List Byte) (hi lo : Byte) (i : Instr) (rest : List Event),
    s.schedule = .reset (hi :: lo :: image) :: .start :: .cpu :: rest → image.length + 2 ≤ 3584 →
    decodeWord (wordOfBytes hi lo) = .ok i →
    ∃ t, core.run 2 s = .next t ∧ t.run = .running ∧ t.pc = 0x200 ∧ step t = exec i { t with schedule := rest }

/-! ## Invariants -/

/-- The reset state meets the invariant. -/
def Obligations.ResetMeetsInvariant : Prop := Inv State.reset

/-- Every step, whatever its event, keeps the invariant: canonical memory (R29, R37), `PC ≤ 0x10FE` (R24), return
addresses on the stack (R37), a fault record exactly in `FAULTED` that fits its kind and names `PC` (R33, R203, R205). -/
def Obligations.StepKeepsInvariant : Prop :=
  ∀ s t : State, Inv s → step s = .next t → Inv t
end

