-- ==== Sys2Proof/Laws/Memory.lean ====
section
/-! SUPPORT. Memory: a read after a write, and that every operation keeps the canonical form. -/

namespace Sys2Proof.Machine

@[simp] theorem Memory.read_nil (a : Nat) : Memory.read [] a = unlisted a := rfl

theorem Memory.read_cons (k : Nat) (b : Byte) (m : Memory) (a : Nat) :
    Memory.read ((k, b) :: m) a = if a = k then b else Memory.read m a := rfl

theorem Memory.read_erase (m : Memory) (a c : Nat) :
    Memory.read (m.erase a) c = if c = a then unlisted a else m.read c := by
  induction m with
  | nil => simp [Memory.erase]; rintro rfl; rfl
  | cons e m ih =>
    obtain ⟨k, b⟩ := e
    simp only [Memory.erase] at ih ⊢
    by_cases hk : k = a
    · subst hk; simp only [List.filter_cons]; simp [ih, Memory.read_cons]; split <;> rfl
    · have : (k != a) = true := by simpa using hk
      simp only [List.filter_cons, this, if_true, Memory.read_cons, ih]
      by_cases hc : c = k
      · subst hc; simp [hk]
      · simp [hc]

theorem Memory.read_insert (m : Memory) (a c : Nat) (b : Byte) (h : ∀ e ∈ m, e.1 ≠ a) :
    Memory.read (m.insert a b) c = if c = a then b else m.read c := by
  induction m with
  | nil => rfl
  | cons e m ih =>
    obtain ⟨k, d⟩ := e
    have hk : k ≠ a := h (k, d) (by simp)
    simp only [Memory.insert]
    split
    · rfl
    · simp only [Memory.read_cons, ih (fun e he => h e (by simp [he]))]
      by_cases hc : c = k
      · subst hc; simp [hk]
      · simp [hc]

theorem Memory.not_mem_erase (m : Memory) (a : Nat) : ∀ e ∈ m.erase a, e.1 ≠ a := by
  intro e he; simpa using (List.mem_filter.mp he).2

/-- A read after a write gives the value written at that address and leaves every other address alone. -/
@[simp] theorem Memory.read_write (m : Memory) (a c : Nat) (b : Byte) :
    (m.write a b).read c = if c = a then b else m.read c := by
  unfold Memory.write
  split
  · next h => rw [Memory.read_erase, h]
  · rw [Memory.read_insert _ _ _ _ (m.not_mem_erase a), Memory.read_erase]; split <;> rfl

/-- What every address reads as after bytes are stored from `a` upwards. -/
theorem Memory.read_writeBytes (bs : List Byte) (m : Memory) (a c : Nat) :
    (m.writeBytes a bs).read c = if h : a ≤ c ∧ c < a + bs.length then bs[c - a] else m.read c := by
  induction bs generalizing m a with
  | nil => simp [Memory.writeBytes]
  | cons b bs ih =>
    simp only [Memory.writeBytes, ih, Memory.read_write, List.length_cons]
    by_cases h0 : c = a
    · subst h0; simp
    · by_cases h1 : a + 1 ≤ c ∧ c < a + 1 + bs.length
      · have h2 : a ≤ c ∧ c < a + (bs.length + 1) := by omega
        have h3 : c - a = (c - (a + 1)) + 1 := by omega
        simp [h1, h2, h3]
      · have h2 : ¬(a ≤ c ∧ c < a + (bs.length + 1)) := by omega
        rw [dif_neg h1, dif_neg h2, if_neg h0]

/-! ## The canonical form -/

theorem Memory.wf_cons (k : Nat) (b : Byte) (m : Memory) :
    Memory.wf ((k, b) :: m) = true ↔ k < memSize ∧ b ≠ unlisted k ∧ (∀ e ∈ m, k < e.1) ∧ m.wf = true := by
  simp [Memory.wf, and_assoc]

theorem Memory.wf_erase (m : Memory) (a : Nat) (h : m.wf = true) : (m.erase a).wf = true := by
  induction m with
  | nil => rfl
  | cons e m ih =>
    obtain ⟨k, b⟩ := e
    obtain ⟨h1, h2, h3, h4⟩ := (Memory.wf_cons k b m).mp h
    simp only [Memory.erase, List.filter_cons] at ih ⊢
    split
    · exact (Memory.wf_cons k b _).mpr ⟨h1, h2, fun e he => h3 e (List.mem_filter.mp he).1, ih h4⟩
    · exact ih h4

theorem Memory.mem_insert (m : Memory) (a : Nat) (b : Byte) : ∀ e ∈ m.insert a b, e = (a, b) ∨ e ∈ m := by
  induction m with
  | nil => simp [Memory.insert]
  | cons c m ih =>
    obtain ⟨k, d⟩ := c
    intro e he
    simp only [Memory.insert] at he
    split at he
    · simpa using he
    · rcases List.mem_cons.mp he with h | h
      · simp [h]
      · rcases ih e h with h' | h' <;> simp [h']

theorem Memory.wf_insert (m : Memory) (a : Nat) (b : Byte) (h : m.wf = true) (ha : a < memSize)
    (hb : b ≠ unlisted a) (hm : ∀ e ∈ m, e.1 ≠ a) : (m.insert a b).wf = true := by
  induction m with
  | nil => simp [Memory.insert, Memory.wf, ha, hb]
  | cons c m ih =>
    obtain ⟨k, d⟩ := c
    obtain ⟨h1, h2, h3, h4⟩ := (Memory.wf_cons k d m).mp h
    have hk : k ≠ a := hm (k, d) (by simp)
    simp only [Memory.insert]
    split
    · next hlt =>
      refine (Memory.wf_cons a b _).mpr ⟨ha, hb, fun e he => ?_, h⟩
      rcases List.mem_cons.mp he with rfl | he
      · exact hlt
      · exact Nat.lt_trans hlt (h3 e he)
    · next hlt =>
      refine (Memory.wf_cons k d _).mpr ⟨h1, h2, fun e he => ?_, ih h4 (fun e he => hm e (by simp [he]))⟩
      rcases Memory.mem_insert m a b e he with rfl | he
      · simp only; omega
      · exact h3 e he

/-- A store inside the memory keeps the canonical form. -/
theorem Memory.wf_write (m : Memory) (a : Nat) (b : Byte) (h : m.wf = true) (ha : a < memSize) :
    (m.write a b).wf = true := by
  unfold Memory.write
  split
  · exact m.wf_erase a h
  · next hb => exact Memory.wf_insert _ a b (m.wf_erase a h) ha hb (m.not_mem_erase a)

/-- Stores of bytes that all lie inside the memory keep the canonical form. -/
theorem Memory.wf_writeBytes (bs : List Byte) (m : Memory) (a : Nat) (h : m.wf = true)
    (ha : a + bs.length ≤ memSize) : (m.writeBytes a bs).wf = true := by
  induction bs generalizing m a with
  | nil => exact h
  | cons b bs ih =>
    simp only [List.length_cons] at ha
    exact ih _ _ (m.wf_write a b h (by omega)) (by omega)

@[simp] theorem Memory.length_readBytes (m : Memory) (a n : Nat) : (m.readBytes a n).length = n := by
  simp [Memory.readBytes]

@[simp] theorem Memory.getElem_readBytes (m : Memory) (a n k : Nat) (h : k < (m.readBytes a n).length) :
    (m.readBytes a n)[k] = m.read (a + k) := by
  simp [Memory.readBytes]

end Sys2Proof.Machine
end

