-- ==== Sys2Proof/Laws/State.lean ====
section
/-! SUPPORT. One lemma per field per update of the state, and what a register reads as after a register write. -/

namespace Sys2Proof.Machine

section setReg

variable (s : State) (x : RegIdx) (b : Byte)

@[simp] theorem State.setReg_v : (s.setReg x b).v = s.v.set x b := rfl
@[simp] theorem State.setReg_i : (s.setReg x b).i = s.i := rfl
@[simp] theorem State.setReg_pc : (s.setReg x b).pc = s.pc := rfl
@[simp] theorem State.setReg_sp : (s.setReg x b).sp = s.sp := rfl
@[simp] theorem State.setReg_stack : (s.setReg x b).stack = s.stack := rfl
@[simp] theorem State.setReg_dt : (s.setReg x b).dt = s.dt := rfl
@[simp] theorem State.setReg_st : (s.setReg x b).st = s.st := rfl
@[simp] theorem State.setReg_mem : (s.setReg x b).mem = s.mem := rfl
@[simp] theorem State.setReg_fb : (s.setReg x b).fb = s.fb := rfl
@[simp] theorem State.setReg_key : (s.setReg x b).key = s.key := rfl
@[simp] theorem State.setReg_run : (s.setReg x b).run = s.run := rfl
@[simp] theorem State.setReg_fault : (s.setReg x b).fault = s.fault := rfl
@[simp] theorem State.setReg_cfg : (s.setReg x b).cfg = s.cfg := rfl
@[simp] theorem State.setReg_schedule : (s.setReg x b).schedule = s.schedule := rfl
@[simp] theorem State.setReg_rndIn : (s.setReg x b).rndIn = s.rndIn := rfl
@[simp] theorem State.setReg_draws : (s.setReg x b).draws = s.draws := rfl
@[simp] theorem State.setReg_cmdError : (s.setReg x b).cmdError = s.cmdError := rfl

end setReg

section setI

variable (s : State) (w : Word)

@[simp] theorem State.setI_v : (s.setI w).v = s.v := rfl
@[simp] theorem State.setI_i : (s.setI w).i = w := rfl
@[simp] theorem State.setI_pc : (s.setI w).pc = s.pc := rfl
@[simp] theorem State.setI_sp : (s.setI w).sp = s.sp := rfl
@[simp] theorem State.setI_stack : (s.setI w).stack = s.stack := rfl
@[simp] theorem State.setI_dt : (s.setI w).dt = s.dt := rfl
@[simp] theorem State.setI_st : (s.setI w).st = s.st := rfl
@[simp] theorem State.setI_mem : (s.setI w).mem = s.mem := rfl
@[simp] theorem State.setI_fb : (s.setI w).fb = s.fb := rfl
@[simp] theorem State.setI_key : (s.setI w).key = s.key := rfl
@[simp] theorem State.setI_run : (s.setI w).run = s.run := rfl
@[simp] theorem State.setI_fault : (s.setI w).fault = s.fault := rfl
@[simp] theorem State.setI_cfg : (s.setI w).cfg = s.cfg := rfl
@[simp] theorem State.setI_schedule : (s.setI w).schedule = s.schedule := rfl
@[simp] theorem State.setI_rndIn : (s.setI w).rndIn = s.rndIn := rfl
@[simp] theorem State.setI_draws : (s.setI w).draws = s.draws := rfl
@[simp] theorem State.setI_cmdError : (s.setI w).cmdError = s.cmdError := rfl
@[simp] theorem State.reg_setI (q : RegIdx) : (s.setI w).reg q = s.reg q := rfl

end setI

section setDt

variable (s : State) (b : Byte)

@[simp] theorem State.setDt_v : (s.setDt b).v = s.v := rfl
@[simp] theorem State.setDt_i : (s.setDt b).i = s.i := rfl
@[simp] theorem State.setDt_pc : (s.setDt b).pc = s.pc := rfl
@[simp] theorem State.setDt_sp : (s.setDt b).sp = s.sp := rfl
@[simp] theorem State.setDt_stack : (s.setDt b).stack = s.stack := rfl
@[simp] theorem State.setDt_dt : (s.setDt b).dt = b := rfl
@[simp] theorem State.setDt_st : (s.setDt b).st = s.st := rfl
@[simp] theorem State.setDt_mem : (s.setDt b).mem = s.mem := rfl
@[simp] theorem State.setDt_fb : (s.setDt b).fb = s.fb := rfl
@[simp] theorem State.setDt_key : (s.setDt b).key = s.key := rfl
@[simp] theorem State.setDt_run : (s.setDt b).run = s.run := rfl
@[simp] theorem State.setDt_fault : (s.setDt b).fault = s.fault := rfl
@[simp] theorem State.setDt_cfg : (s.setDt b).cfg = s.cfg := rfl
@[simp] theorem State.setDt_schedule : (s.setDt b).schedule = s.schedule := rfl
@[simp] theorem State.setDt_rndIn : (s.setDt b).rndIn = s.rndIn := rfl
@[simp] theorem State.setDt_draws : (s.setDt b).draws = s.draws := rfl
@[simp] theorem State.setDt_cmdError : (s.setDt b).cmdError = s.cmdError := rfl
@[simp] theorem State.reg_setDt (q : RegIdx) : (s.setDt b).reg q = s.reg q := rfl

end setDt

section setSt

variable (s : State) (b : Byte)

@[simp] theorem State.setSt_v : (s.setSt b).v = s.v := rfl
@[simp] theorem State.setSt_i : (s.setSt b).i = s.i := rfl
@[simp] theorem State.setSt_pc : (s.setSt b).pc = s.pc := rfl
@[simp] theorem State.setSt_sp : (s.setSt b).sp = s.sp := rfl
@[simp] theorem State.setSt_stack : (s.setSt b).stack = s.stack := rfl
@[simp] theorem State.setSt_dt : (s.setSt b).dt = s.dt := rfl
@[simp] theorem State.setSt_st : (s.setSt b).st = b := rfl
@[simp] theorem State.setSt_mem : (s.setSt b).mem = s.mem := rfl
@[simp] theorem State.setSt_fb : (s.setSt b).fb = s.fb := rfl
@[simp] theorem State.setSt_key : (s.setSt b).key = s.key := rfl
@[simp] theorem State.setSt_run : (s.setSt b).run = s.run := rfl
@[simp] theorem State.setSt_fault : (s.setSt b).fault = s.fault := rfl
@[simp] theorem State.setSt_cfg : (s.setSt b).cfg = s.cfg := rfl
@[simp] theorem State.setSt_schedule : (s.setSt b).schedule = s.schedule := rfl
@[simp] theorem State.setSt_rndIn : (s.setSt b).rndIn = s.rndIn := rfl
@[simp] theorem State.setSt_draws : (s.setSt b).draws = s.draws := rfl
@[simp] theorem State.setSt_cmdError : (s.setSt b).cmdError = s.cmdError := rfl
@[simp] theorem State.reg_setSt (q : RegIdx) : (s.setSt b).reg q = s.reg q := rfl

end setSt

section setMem

variable (s : State) (m : Memory)

@[simp] theorem State.setMem_v : (s.setMem m).v = s.v := rfl
@[simp] theorem State.setMem_i : (s.setMem m).i = s.i := rfl
@[simp] theorem State.setMem_pc : (s.setMem m).pc = s.pc := rfl
@[simp] theorem State.setMem_sp : (s.setMem m).sp = s.sp := rfl
@[simp] theorem State.setMem_stack : (s.setMem m).stack = s.stack := rfl
@[simp] theorem State.setMem_dt : (s.setMem m).dt = s.dt := rfl
@[simp] theorem State.setMem_st : (s.setMem m).st = s.st := rfl
@[simp] theorem State.setMem_mem : (s.setMem m).mem = m := rfl
@[simp] theorem State.setMem_fb : (s.setMem m).fb = s.fb := rfl
@[simp] theorem State.setMem_key : (s.setMem m).key = s.key := rfl
@[simp] theorem State.setMem_run : (s.setMem m).run = s.run := rfl
@[simp] theorem State.setMem_fault : (s.setMem m).fault = s.fault := rfl
@[simp] theorem State.setMem_cfg : (s.setMem m).cfg = s.cfg := rfl
@[simp] theorem State.setMem_schedule : (s.setMem m).schedule = s.schedule := rfl
@[simp] theorem State.setMem_rndIn : (s.setMem m).rndIn = s.rndIn := rfl
@[simp] theorem State.setMem_draws : (s.setMem m).draws = s.draws := rfl
@[simp] theorem State.setMem_cmdError : (s.setMem m).cmdError = s.cmdError := rfl
@[simp] theorem State.reg_setMem (q : RegIdx) : (s.setMem m).reg q = s.reg q := rfl

end setMem

section setFb

variable (s : State) (g : Vector (Vector Bool 64) 32)

@[simp] theorem State.setFb_v : (s.setFb g).v = s.v := rfl
@[simp] theorem State.setFb_i : (s.setFb g).i = s.i := rfl
@[simp] theorem State.setFb_pc : (s.setFb g).pc = s.pc := rfl
@[simp] theorem State.setFb_sp : (s.setFb g).sp = s.sp := rfl
@[simp] theorem State.setFb_stack : (s.setFb g).stack = s.stack := rfl
@[simp] theorem State.setFb_dt : (s.setFb g).dt = s.dt := rfl
@[simp] theorem State.setFb_st : (s.setFb g).st = s.st := rfl
@[simp] theorem State.setFb_mem : (s.setFb g).mem = s.mem := rfl
@[simp] theorem State.setFb_fb : (s.setFb g).fb = g := rfl
@[simp] theorem State.setFb_key : (s.setFb g).key = s.key := rfl
@[simp] theorem State.setFb_run : (s.setFb g).run = s.run := rfl
@[simp] theorem State.setFb_fault : (s.setFb g).fault = s.fault := rfl
@[simp] theorem State.setFb_cfg : (s.setFb g).cfg = s.cfg := rfl
@[simp] theorem State.setFb_schedule : (s.setFb g).schedule = s.schedule := rfl
@[simp] theorem State.setFb_rndIn : (s.setFb g).rndIn = s.rndIn := rfl
@[simp] theorem State.setFb_draws : (s.setFb g).draws = s.draws := rfl
@[simp] theorem State.setFb_cmdError : (s.setFb g).cmdError = s.cmdError := rfl
@[simp] theorem State.reg_setFb (q : RegIdx) : (s.setFb g).reg q = s.reg q := rfl

end setFb

section setPc

variable (s : State) (w : Word)

@[simp] theorem State.setPc_v : (s.setPc w).v = s.v := rfl
@[simp] theorem State.setPc_i : (s.setPc w).i = s.i := rfl
@[simp] theorem State.setPc_pc : (s.setPc w).pc = w := rfl
@[simp] theorem State.setPc_sp : (s.setPc w).sp = s.sp := rfl
@[simp] theorem State.setPc_stack : (s.setPc w).stack = s.stack := rfl
@[simp] theorem State.setPc_dt : (s.setPc w).dt = s.dt := rfl
@[simp] theorem State.setPc_st : (s.setPc w).st = s.st := rfl
@[simp] theorem State.setPc_mem : (s.setPc w).mem = s.mem := rfl
@[simp] theorem State.setPc_fb : (s.setPc w).fb = s.fb := rfl
@[simp] theorem State.setPc_key : (s.setPc w).key = s.key := rfl
@[simp] theorem State.setPc_run : (s.setPc w).run = s.run := rfl
@[simp] theorem State.setPc_fault : (s.setPc w).fault = s.fault := rfl
@[simp] theorem State.setPc_cfg : (s.setPc w).cfg = s.cfg := rfl
@[simp] theorem State.setPc_schedule : (s.setPc w).schedule = s.schedule := rfl
@[simp] theorem State.setPc_rndIn : (s.setPc w).rndIn = s.rndIn := rfl
@[simp] theorem State.setPc_draws : (s.setPc w).draws = s.draws := rfl
@[simp] theorem State.setPc_cmdError : (s.setPc w).cmdError = s.cmdError := rfl
@[simp] theorem State.reg_setPc (q : RegIdx) : (s.setPc w).reg q = s.reg q := rfl

end setPc

section next

variable (s : State)

@[simp] theorem State.next_v : (s.next).v = s.v := rfl
@[simp] theorem State.next_i : (s.next).i = s.i := rfl
@[simp] theorem State.next_pc : (s.next).pc = nextPc s.pc := rfl
@[simp] theorem State.next_sp : (s.next).sp = s.sp := rfl
@[simp] theorem State.next_stack : (s.next).stack = s.stack := rfl
@[simp] theorem State.next_dt : (s.next).dt = s.dt := rfl
@[simp] theorem State.next_st : (s.next).st = s.st := rfl
@[simp] theorem State.next_mem : (s.next).mem = s.mem := rfl
@[simp] theorem State.next_fb : (s.next).fb = s.fb := rfl
@[simp] theorem State.next_key : (s.next).key = s.key := rfl
@[simp] theorem State.next_run : (s.next).run = s.run := rfl
@[simp] theorem State.next_fault : (s.next).fault = s.fault := rfl
@[simp] theorem State.next_cfg : (s.next).cfg = s.cfg := rfl
@[simp] theorem State.next_schedule : (s.next).schedule = s.schedule := rfl
@[simp] theorem State.next_rndIn : (s.next).rndIn = s.rndIn := rfl
@[simp] theorem State.next_draws : (s.next).draws = s.draws := rfl
@[simp] theorem State.next_cmdError : (s.next).cmdError = s.cmdError := rfl
@[simp] theorem State.reg_next (q : RegIdx) : (s.next).reg q = s.reg q := rfl

end next

section skipIf

variable (s : State) (c : Bool)

@[simp] theorem State.skipIf_v : (s.skipIf c).v = s.v := rfl
@[simp] theorem State.skipIf_i : (s.skipIf c).i = s.i := rfl
@[simp] theorem State.skipIf_pc : (s.skipIf c).pc = if c then skipPc s.pc else nextPc s.pc := rfl
@[simp] theorem State.skipIf_sp : (s.skipIf c).sp = s.sp := rfl
@[simp] theorem State.skipIf_stack : (s.skipIf c).stack = s.stack := rfl
@[simp] theorem State.skipIf_dt : (s.skipIf c).dt = s.dt := rfl
@[simp] theorem State.skipIf_st : (s.skipIf c).st = s.st := rfl
@[simp] theorem State.skipIf_mem : (s.skipIf c).mem = s.mem := rfl
@[simp] theorem State.skipIf_fb : (s.skipIf c).fb = s.fb := rfl
@[simp] theorem State.skipIf_key : (s.skipIf c).key = s.key := rfl
@[simp] theorem State.skipIf_run : (s.skipIf c).run = s.run := rfl
@[simp] theorem State.skipIf_fault : (s.skipIf c).fault = s.fault := rfl
@[simp] theorem State.skipIf_cfg : (s.skipIf c).cfg = s.cfg := rfl
@[simp] theorem State.skipIf_schedule : (s.skipIf c).schedule = s.schedule := rfl
@[simp] theorem State.skipIf_rndIn : (s.skipIf c).rndIn = s.rndIn := rfl
@[simp] theorem State.skipIf_draws : (s.skipIf c).draws = s.draws := rfl
@[simp] theorem State.skipIf_cmdError : (s.skipIf c).cmdError = s.cmdError := rfl
@[simp] theorem State.reg_skipIf (q : RegIdx) : (s.skipIf c).reg q = s.reg q := rfl

end skipIf

section faultEntry

variable (s : State) (r : FaultRecord)

@[simp] theorem State.faultEntry_v : (s.faultEntry r).v = s.v := rfl
@[simp] theorem State.faultEntry_i : (s.faultEntry r).i = s.i := rfl
@[simp] theorem State.faultEntry_pc : (s.faultEntry r).pc = s.pc := rfl
@[simp] theorem State.faultEntry_sp : (s.faultEntry r).sp = s.sp := rfl
@[simp] theorem State.faultEntry_stack : (s.faultEntry r).stack = s.stack := rfl
@[simp] theorem State.faultEntry_dt : (s.faultEntry r).dt = s.dt := rfl
@[simp] theorem State.faultEntry_st : (s.faultEntry r).st = s.st := rfl
@[simp] theorem State.faultEntry_mem : (s.faultEntry r).mem = s.mem := rfl
@[simp] theorem State.faultEntry_fb : (s.faultEntry r).fb = s.fb := rfl
@[simp] theorem State.faultEntry_key : (s.faultEntry r).key = s.key := rfl
@[simp] theorem State.faultEntry_run : (s.faultEntry r).run = .faulted := rfl
@[simp] theorem State.faultEntry_fault : (s.faultEntry r).fault = r := rfl
@[simp] theorem State.faultEntry_cfg : (s.faultEntry r).cfg = s.cfg := rfl
@[simp] theorem State.faultEntry_schedule : (s.faultEntry r).schedule = s.schedule := rfl
@[simp] theorem State.faultEntry_rndIn : (s.faultEntry r).rndIn = s.rndIn := rfl
@[simp] theorem State.faultEntry_draws : (s.faultEntry r).draws = s.draws := rfl
@[simp] theorem State.faultEntry_cmdError : (s.faultEntry r).cmdError = s.cmdError := rfl
@[simp] theorem State.reg_faultEntry (q : RegIdx) : (s.faultEntry r).reg q = s.reg q := rfl

end faultEntry

section setRegFlag

variable (s : State) (x : RegIdx) (b f : Byte)

@[simp] theorem State.setRegFlag_v : (s.setRegFlag x b f).v = (s.v.set x b).set vf f := rfl
@[simp] theorem State.setRegFlag_i : (s.setRegFlag x b f).i = s.i := rfl
@[simp] theorem State.setRegFlag_pc : (s.setRegFlag x b f).pc = s.pc := rfl
@[simp] theorem State.setRegFlag_sp : (s.setRegFlag x b f).sp = s.sp := rfl
@[simp] theorem State.setRegFlag_stack : (s.setRegFlag x b f).stack = s.stack := rfl
@[simp] theorem State.setRegFlag_dt : (s.setRegFlag x b f).dt = s.dt := rfl
@[simp] theorem State.setRegFlag_st : (s.setRegFlag x b f).st = s.st := rfl
@[simp] theorem State.setRegFlag_mem : (s.setRegFlag x b f).mem = s.mem := rfl
@[simp] theorem State.setRegFlag_fb : (s.setRegFlag x b f).fb = s.fb := rfl
@[simp] theorem State.setRegFlag_key : (s.setRegFlag x b f).key = s.key := rfl
@[simp] theorem State.setRegFlag_run : (s.setRegFlag x b f).run = s.run := rfl
@[simp] theorem State.setRegFlag_fault : (s.setRegFlag x b f).fault = s.fault := rfl
@[simp] theorem State.setRegFlag_cfg : (s.setRegFlag x b f).cfg = s.cfg := rfl
@[simp] theorem State.setRegFlag_schedule : (s.setRegFlag x b f).schedule = s.schedule := rfl
@[simp] theorem State.setRegFlag_rndIn : (s.setRegFlag x b f).rndIn = s.rndIn := rfl
@[simp] theorem State.setRegFlag_draws : (s.setRegFlag x b f).draws = s.draws := rfl
@[simp] theorem State.setRegFlag_cmdError : (s.setRegFlag x b f).cmdError = s.cmdError := rfl

end setRegFlag

/-! ## Registers -/

theorem State.reg_eq (s : State) (r : RegIdx) : s.reg r = s.v[r.val] := rfl

@[simp] theorem State.reg_setReg (s : State) (x r : RegIdx) (b : Byte) :
    (s.setReg x b).reg r = if r = x then b else s.reg r := by
  by_cases h : r = x
  · subst h; simp [State.reg_eq]
  · have : x.val ≠ r.val := fun e => h (Fin.ext e.symm)
    simp [State.reg_eq, h, Vector.getElem_set_ne, this]

/-- The flag is written last, so with `x = 15` it wins over the result (41_register_alu.md R122). -/
@[simp] theorem State.reg_setRegFlag (s : State) (x r : RegIdx) (b f : Byte) :
    (s.setRegFlag x b f).reg r = if r = vf then f else if r = x then b else s.reg r := by
  simp [State.setRegFlag]

/-- Writing a register back what it holds changes nothing. -/
theorem State.setReg_self (s : State) (x : RegIdx) : s.setReg x (s.reg x) = s := by
  simp [State.setReg, State.reg_eq]

end Sys2Proof.Machine
end

