-- ==== Sys2Proof/Laws/Ops.lean ====
section
/-! SUPPORT. One lemma per shared operation: what it can do. -/

namespace Sys2Proof.Machine

/-! ## Faults and the bound check -/

theorem raise_eq (k : FaultKind) (op : Word) (a : Addr17) (s : State) :
    raise k op a s = .next (s.faultEntry ⟨k, op, s.pc, a⟩) := rfl

theorem spanOk_iff (a n : Nat) : spanOk a n = true ↔ n = 0 ∨ a + n ≤ 0x1000 :=
  decide_eq_true_iff

theorem spanOk_eq_false (a n : Nat) : spanOk a n = false ↔ n ≠ 0 ∧ 0x1000 < a + n := by
  rw [← Bool.not_eq_true, spanOk_iff]; omega

/-- An address that fails the check is at least 0x1000 and is recorded in full. -/
theorem lowestBad_toNat (w : Word) : (lowestBad w.toNat).toNat = max w.toNat 0x1000 := by
  have h := w.isLt
  simp only [lowestBad, memSize, BitVec.toNat_ofNat]
  omega

/-! ## The call stack -/

theorem State.push_eq (s : State) (w : Word) (h : s.sp.val < 16) :
    s.push w = some { s with stack := s.stack.set s.sp.val w, sp := ⟨s.sp.val + 1, by omega⟩ } := by
  simp [State.push, h]

theorem State.push_full (s : State) (w : Word) (h : s.sp.val = 16) : s.push w = none := by
  simp [State.push, h]

theorem State.pop_eq (s : State) (h : 0 < s.sp.val) :
    s.pop = some (s.stack[s.sp.val - 1], { s with sp := ⟨s.sp.val - 1, by omega⟩ }) := by
  simp [State.pop, h]

theorem State.pop_empty (s : State) (h : s.sp.val = 0) : s.pop = none := by
  simp [State.pop, h]

/-! ## The random source -/

theorem State.draw_cons (s : State) (b : Byte) (l : List Byte) (h : s.rndIn = b :: l) : s.draw = b := by
  simp [State.draw, h]

theorem State.drawn_cons (s : State) (b : Byte) (l : List Byte) (h : s.rndIn = b :: l) :
    s.drawn = { s with rndIn := l } := by
  simp [State.drawn, h]

theorem State.drawn_nil (s : State) (h : s.rndIn = []) : s.drawn = { s with draws := s.draws + 1 } := by
  simp [State.drawn, h]

/-- A draw changes the inputs and nothing else. -/
theorem State.drawn_eq (s : State) : ∃ l k, s.drawn = { s with rndIn := l, draws := k } := by
  cases h : s.rndIn with
  | nil => exact ⟨s.rndIn, s.draws + 1, by rw [s.drawn_nil h]⟩
  | cons b l => exact ⟨l, s.draws, by rw [s.drawn_cons b l h]⟩

/-! ## Fetch -/

theorem fetch_ok (s : State) (h : s.pc.toNat ≤ 0xFFE) :
    fetch s = .ok (wordOfBytes (s.mem.read s.pc.toNat) (s.mem.read (s.pc.toNat + 1))) := by
  have h1 : ¬s.pc.toNat > 0xFFF := by omega
  have h2 : ¬s.pc.toNat + 1 > 0xFFF := by omega
  simp only [fetch, if_neg h1, if_neg h2]

theorem fetch_edge (s : State) (h : s.pc.toNat = 0xFFF) : fetch s = .error 0x1000#17 := by
  simp [fetch, h]

theorem fetch_beyond (s : State) (h : 0xFFF < s.pc.toNat) : fetch s = .error (s.pc.setWidth 17) := by
  simp only [fetch, gt_iff_lt, h, if_true]

/-- Fetch fails with the lowest out-of-range address (60_exceptions.md R203). -/
theorem fetch_error (s : State) (h : 0xFFE < s.pc.toNat) :
    ∃ a : Addr17, fetch s = .error a ∧ a.toNat = max s.pc.toNat 0x1000 := by
  by_cases h1 : s.pc.toNat = 0xFFF
  · exact ⟨_, fetch_edge s h1, by rw [h1]; rfl⟩
  · have := s.pc.isLt
    refine ⟨_, fetch_beyond s (by omega), ?_⟩
    simp only [BitVec.toNat_setWidth]
    omega

/-! ## Program counter, operands and flags as numbers -/

theorem nextPc_toNat (pc : Word) : (nextPc pc).toNat = (pc.toNat + 2) % 65536 := by simp [nextPc]

theorem skipPc_toNat (pc : Word) : (skipPc pc).toNat = (pc.toNat + 4) % 65536 := by simp [skipPc]

@[simp] theorem addrOperand_toNat (nnn : Addr12) : (addrOperand nnn).toNat = nnn.toNat := by
  have := nnn.isLt
  simp only [addrOperand, BitVec.toNat_setWidth]; omega

@[simp] theorem byteOffset_toNat (b : Byte) : (byteOffset b).toNat = b.toNat := by
  have := b.isLt
  simp only [byteOffset, BitVec.toNat_setWidth]; omega

theorem keyIndex_val (b : Byte) : (keyIndex b).val = b.toNat % 16 := by
  simp [keyIndex]

theorem glyphAddr_toNat (b : Byte) : (glyphAddr b).toNat = 5 * (b.toNat % 16) := by
  simp only [glyphAddr, fontBase, BitVec.toNat_ofNat, BitVec.extractLsb'_toNat, Nat.shiftRight_zero]; omega

theorem carryFlag_eq (a b : Byte) : carryFlag a b = if a.toNat + b.toNat > 255 then 1 else 0 := by
  simp [carryFlag, flagByte]

theorem noBorrowFlag_eq (a b : Byte) : noBorrowFlag a b = if a.toNat ≥ b.toNat then 1 else 0 := by
  simp [noBorrowFlag, flagByte]

theorem carryFlag_toNat (a b : Byte) : (carryFlag a b).toNat = if a.toNat + b.toNat > 255 then 1 else 0 := by
  rw [carryFlag_eq, apply_ite BitVec.toNat]; rfl

theorem noBorrowFlag_toNat (a b : Byte) : (noBorrowFlag a b).toNat = if a.toNat ≥ b.toNat then 1 else 0 := by
  rw [noBorrowFlag_eq, apply_ite BitVec.toNat]; rfl

theorem lowBitFlag_toNat (a : Byte) : (lowBitFlag a).toNat = a.toNat % 2 := by
  simp only [lowBitFlag, flagByte, BitVec.getLsbD, Nat.testBit_zero]
  rcases Nat.mod_two_eq_zero_or_one a.toNat with h | h <;> simp [h]

theorem highBitFlag_toNat (a : Byte) : (highBitFlag a).toNat = a.toNat / 128 := by
  have h := a.isLt
  have h2 : a.toNat.testBit 7 = decide (a.toNat / 128 = 1) := by
    rw [Nat.testBit_eq_decide_div_mod_eq]; congr 1; simp; omega
  simp only [highBitFlag, flagByte, BitVec.getLsbD, h2]
  by_cases h1 : a.toNat / 128 = 1
  · simp [h1]
  · simp [h1]; omega

theorem regBlock_length (v : Vector Byte 16) (x : RegIdx) : (regBlock v x).length = x.val + 1 := by
  simp [regBlock]

theorem regBlock_getElem (v : Vector Byte 16) (x : RegIdx) (k : Nat) (h : k < (regBlock v x).length) :
    (regBlock v x)[k] = v[k]'(by have := regBlock_length v x; omega) := by
  simp [regBlock]

theorem loadRegBlock_getElem (v : Vector Byte 16) (m : Memory) (base : Nat) (x r : RegIdx) :
    (loadRegBlock v m base x)[r.val] = if r ≤ x then m.read (base + r.val) else v[r.val] := by
  simp [loadRegBlock]

end Sys2Proof.Machine
end

