-- ==== Sys2Proof/Laws/Agents.lean ====
section
/-! SUPPORT. What each agent's step does, and that every operation answers a next state. -/

namespace Sys2Proof.Machine

/-! ## The engines -/

/-- The counter is "decremented toward zero and clamped at zero (never negative)" (10_state.md R27). -/
theorem countDown_toNat (b : Byte) : (countDown b).toNat = b.toNat - 1 := by
  unfold countDown
  have hb := b.isLt
  split
  · next h => subst h; rfl
  · next h =>
    have : b.toNat ≠ 0 := fun e => h (BitVec.eq_of_toNat_eq (by simpa using e))
    rw [BitVec.toNat_sub_of_le (by rw [BitVec.le_def]; simp; omega)]; simp

theorem dtTick_running (s : State) (h : s.run = .running) : dtTick s = s.setDt (countDown s.dt) := by
  simp [dtTick, h]

theorem stTick_running (s : State) (h : s.run = .running) : stTick s = s.setSt (countDown s.st) := by
  simp [stTick, h]

theorem dtTick_frozen (s : State) (h : s.run ≠ .running) : dtTick s = s := by
  unfold dtTick; split <;> simp_all

theorem stTick_frozen (s : State) (h : s.run ≠ .running) : stTick s = s := by
  unfold stTick; split <;> simp_all

/-! ## The CPU -/

theorem cpuStep_running (s : State) (h : s.run = .running) : cpuStep s = cpuCycle s := by
  simp [cpuStep, h]

theorem cpuStep_frozen (s : State) (h : s.run ≠ .running) : cpuStep s = .next s := by
  unfold cpuStep; split <;> simp_all

theorem cpuCycle_fetchFault (s : State) (a : Addr17) (h : fetch s = .error a) :
    cpuCycle s = .next (s.faultEntry ⟨.memoryFault, 0, s.pc, a⟩) := by
  simp [cpuCycle, h, raise_eq]

theorem cpuCycle_illegal (s : State) (op : Word) (r : Reject) (h : fetch s = .ok op) (hd : decodeWord op = .error r) :
    cpuCycle s = .next (s.faultEntry ⟨.decodeError, op, s.pc, 0⟩) := by
  simp [cpuCycle, h, hd, raise_eq]

theorem cpuCycle_legal (s : State) (op : Word) (i : Instr) (h : fetch s = .ok op) (hd : decodeWord op = .ok i) :
    cpuCycle s = exec i s := by
  simp [cpuCycle, h, hd]

/-- Every instruction's meaning answers a next state: a fault is an entry, not a stop. -/
theorem exec_answers (i : Instr) (s : State) : ∃ t, exec i s = .next t := by
  cases i <;> simp only [exec] <;> try exact ⟨_, rfl⟩
  case ret => unfold execRet; split <;> exact ⟨_, rfl⟩
  case call => unfold execCall; split <;> exact ⟨_, rfl⟩
  case drw => unfold execDrw; split <;> exact ⟨_, rfl⟩
  case ldVxK => unfold execLdVxK; split <;> exact ⟨_, rfl⟩
  case ldB => unfold execLdB; split <;> exact ⟨_, rfl⟩
  case ldMemVx => unfold execLdMemVx; split <;> exact ⟨_, rfl⟩
  case ldVxMem => unfold execLdVxMem; split <;> exact ⟨_, rfl⟩

/-- What one instruction cycle can do: a fetch fault, a decode fault, or the decoded instruction
(47_agents_and_arbiter.md R180 to R182). -/
theorem cpuCycle_cases (s : State) :
    (∃ a, fetch s = .error a ∧ cpuCycle s = .next (s.faultEntry ⟨.memoryFault, 0, s.pc, a⟩)) ∨
    (∃ op r, fetch s = .ok op ∧ decodeWord op = .error r ∧
      cpuCycle s = .next (s.faultEntry ⟨.decodeError, op, s.pc, 0⟩)) ∨
    (∃ op i, fetch s = .ok op ∧ decodeWord op = .ok i ∧ cpuCycle s = exec i s) := by
  cases h : fetch s with
  | error a => exact .inl ⟨a, rfl, cpuCycle_fetchFault s a h⟩
  | ok op =>
    cases hd : decodeWord op with
    | error r => exact .inr (.inl ⟨op, r, rfl, hd, cpuCycle_illegal s op r h hd⟩)
    | ok i => exact .inr (.inr ⟨op, i, rfl, hd, cpuCycle_legal s op i h hd⟩)

/-- A fetch succeeds only where both bytes exist. -/
theorem fetch_ok_bound (s : State) (op : Word) (h : fetch s = .ok op) :
    s.pc.toNat ≤ 0xFFE ∧ op = wordOfBytes (s.mem.read s.pc.toNat) (s.mem.read (s.pc.toNat + 1)) := by
  by_cases hb : s.pc.toNat ≤ 0xFFE
  · rw [fetch_ok s hb] at h; exact ⟨hb, by simpa using h.symm⟩
  · obtain ⟨a, ha, _⟩ := fetch_error s (by omega); rw [ha] at h; cases h

/-! ## One step -/

theorem step_nil (s : State) (h : s.schedule = []) : step s = cpuStep s := by
  simp [step, grantNext, h]

theorem step_cons (s : State) (e : Event) (rest : List Event) (h : s.schedule = e :: rest) :
    step s = deliver e { s with schedule := rest } := by
  simp [step, grantNext, h]

theorem core_run_zero (s : State) : core.run 0 s = .next s := rfl

/-- A run of one step more is the step, then the run. -/
theorem core_run_next (k : Nat) (s t : State) (h : step s = .next t) : core.run (k + 1) s = core.run k t := by
  have e : core.step s = .next t := h
  simp only [Host.Core.run, e]

/-! ## The host -/

theorem hostStart_idle (s : State) (h : s.run = .idle) : hostStart s = { s with run := .running, cmdError := false } := by
  simp [hostStart, h]

theorem hostStart_refused (s : State) (h : s.run ≠ .idle) : hostStart s = { s with cmdError := true } := by
  unfold hostStart; split <;> simp_all

theorem hostStop_running (s : State) (h : s.run = .running) :
    hostStop s = { s with run := .stopped, cmdError := false } := by
  simp [hostStop, h]

theorem hostStop_idle (s : State) (h : s.run = .idle) : hostStop s = { s with cmdError := true } := by
  simp [hostStop, h]

theorem hostStop_ended (s : State) (h : s.run = .stopped ∨ s.run = .faulted) :
    hostStop s = { s with cmdError := false } := by
  rcases h with h | h <;> simp [hostStop, h]

theorem hostReset_fits (image : List Byte) (s : State) (h : image.length ≤ 3584) :
    hostReset image s = resetWith image s := by
  have : ¬image.length > maxProgLen := by simp only [maxProgLen]; omega
  rw [hostReset, if_neg this]

theorem hostReset_tooLong (image : List Byte) (s : State) (h : 3584 < image.length) :
    hostReset image s = (resetWith [] s).faultEntry loadErrorRecord := by
  have : image.length > maxProgLen := by simp only [maxProgLen]; omega
  rw [hostReset, if_pos this]

/-- Reset leaves a canonical memory. -/
theorem wf_resetMemory (font : Vector Byte 80) (image : List Byte) (h : image.length ≤ 3584) :
    (resetMemory font image).wf = true := by
  refine Memory.wf_writeBytes _ _ _ (Memory.wf_writeBytes _ _ _ rfl ?_) ?_
  · simp [fontBase, memSize]
  · simp only [progBase, memSize]; omega

end Sys2Proof.Machine
end

