-- ==== Sys2Proof/Laws/Decode.lean ====
section
/-! SUPPORT. Fields and words as numbers, the fields of an encoded word, and a word rebuilt from its fields. -/

namespace Sys2Proof

/-! ## Fields as numbers (30_encoding.md R71) -/

theorem fieldN0_toNat (op : Word) : (fieldN0 op).toNat = op.toNat / 4096 := by
  have := op.isLt
  simp [fieldN0, Nat.shiftRight_eq_div_pow]; omega

theorem fieldX_val (op : Word) : (fieldX op).val = op.toNat / 256 % 16 := by
  simp [fieldX, Nat.shiftRight_eq_div_pow]

theorem fieldY_val (op : Word) : (fieldY op).val = op.toNat / 16 % 16 := by
  simp [fieldY, Nat.shiftRight_eq_div_pow]

theorem fieldN_val (op : Word) : (fieldN op).val = op.toNat % 16 := by
  simp [fieldN]

theorem fieldN3_toNat (op : Word) : (fieldN3 op).toNat = op.toNat % 16 := by
  simp [fieldN3]

theorem fieldKk_toNat (op : Word) : (fieldKk op).toNat = op.toNat % 256 := by
  simp [fieldKk]

theorem fieldNnn_toNat (op : Word) : (fieldNnn op).toNat = op.toNat % 4096 := by
  simp [fieldNnn]

/-! ## Words as numbers (30_encoding.md R72) -/

theorem toNat_append_eq {m n : Nat} (a : BitVec m) (b : BitVec n) : (a ++ b).toNat = a.toNat * 2 ^ n + b.toNat := by
  rw [BitVec.toNat_append, ← Nat.shiftLeft_add_eq_or_of_lt b.isLt, Nat.shiftLeft_eq]

@[simp] theorem nibble_toNat (k : Fin 16) : (nibble k).toNat = k.val := by
  simp only [nibble, BitVec.toNat_ofNat]; omega

theorem wordNnn_toNat (g : BitVec 4) (nnn : Addr12) : (wordNnn g nnn).toNat = g.toNat * 4096 + nnn.toNat := by
  rw [wordNnn, toNat_append_eq]; omega

theorem wordXkk_toNat (g : BitVec 4) (x : RegIdx) (kk : Byte) :
    (wordXkk g x kk).toNat = g.toNat * 4096 + x.val * 256 + kk.toNat := by
  rw [wordXkk, toNat_append_eq, toNat_append_eq, nibble_toNat]; omega

theorem wordXyn_toNat (g : BitVec 4) (x y : RegIdx) (n : BitVec 4) :
    (wordXyn g x y n).toNat = g.toNat * 4096 + x.val * 256 + y.val * 16 + n.toNat := by
  rw [wordXyn, toNat_append_eq, toNat_append_eq, toNat_append_eq, nibble_toNat, nibble_toNat]; omega

/-! ## The fields of an encoded word -/

section Nnn
variable (g : BitVec 4) (nnn : Addr12)

@[simp] theorem fieldN0_wordNnn : fieldN0 (wordNnn g nnn) = g := by
  apply BitVec.eq_of_toNat_eq; rw [fieldN0_toNat, wordNnn_toNat]; omega

@[simp] theorem fieldNnn_wordNnn : fieldNnn (wordNnn g nnn) = nnn := by
  apply BitVec.eq_of_toNat_eq; rw [fieldNnn_toNat, wordNnn_toNat]; omega

end Nnn

section Xkk
variable (g : BitVec 4) (x : RegIdx) (kk : Byte)

@[simp] theorem fieldN0_wordXkk : fieldN0 (wordXkk g x kk) = g := by
  apply BitVec.eq_of_toNat_eq; rw [fieldN0_toNat, wordXkk_toNat]; omega

@[simp] theorem fieldX_wordXkk : fieldX (wordXkk g x kk) = x := by
  apply Fin.ext; rw [fieldX_val, wordXkk_toNat]; omega

@[simp] theorem fieldKk_wordXkk : fieldKk (wordXkk g x kk) = kk := by
  apply BitVec.eq_of_toNat_eq; rw [fieldKk_toNat, wordXkk_toNat]; omega

end Xkk

section Xyn
variable (g : BitVec 4) (x y : RegIdx) (n : BitVec 4)

@[simp] theorem fieldN0_wordXyn : fieldN0 (wordXyn g x y n) = g := by
  apply BitVec.eq_of_toNat_eq; rw [fieldN0_toNat, wordXyn_toNat]; omega

@[simp] theorem fieldX_wordXyn : fieldX (wordXyn g x y n) = x := by
  apply Fin.ext; rw [fieldX_val, wordXyn_toNat]; omega

@[simp] theorem fieldY_wordXyn : fieldY (wordXyn g x y n) = y := by
  apply Fin.ext; rw [fieldY_val, wordXyn_toNat]; omega

@[simp] theorem fieldN3_wordXyn : fieldN3 (wordXyn g x y n) = n := by
  apply BitVec.eq_of_toNat_eq; rw [fieldN3_toNat, wordXyn_toNat]; omega

@[simp] theorem fieldN_wordXyn (k : Fin 16) : fieldN (wordXyn g x y (nibble k)) = k := by
  apply Fin.ext; rw [fieldN_val, wordXyn_toNat, nibble_toNat]; omega

end Xyn

/-! ## A word is the word of its fields -/

theorem wordNnn_fields (op : Word) : wordNnn (fieldN0 op) (fieldNnn op) = op := by
  apply BitVec.eq_of_toNat_eq
  rw [wordNnn_toNat, fieldN0_toNat, fieldNnn_toNat]; omega

theorem wordXkk_fields (op : Word) : wordXkk (fieldN0 op) (fieldX op) (fieldKk op) = op := by
  apply BitVec.eq_of_toNat_eq
  rw [wordXkk_toNat, fieldN0_toNat, fieldX_val, fieldKk_toNat]; omega

theorem wordXyn_fields (op : Word) : wordXyn (fieldN0 op) (fieldX op) (fieldY op) (fieldN3 op) = op := by
  apply BitVec.eq_of_toNat_eq
  rw [wordXyn_toNat, fieldN0_toNat, fieldX_val, fieldY_val, fieldN3_toNat]; omega

/-! ## What the masks of the opcode table keep (30_encoding.md R74) -/

/-- The mask 0xF000 keeps the group. -/
theorem mask_major (op : Word) : op &&& 0xF000#16 = wordNnn (fieldN0 op) 0#12 := by
  conv_lhs => rw [← wordNnn_fields op]
  show (fieldN0 op ++ fieldNnn op) &&& (BitVec.allOnes 4 ++ 0#12) = fieldN0 op ++ 0#12
  simp only [BitVec.and_append, BitVec.and_zero, BitVec.and_allOnes]

/-- The mask 0xF00F keeps the group and the last nibble. -/
theorem mask_xy (op : Word) : op &&& 0xF00F#16 = wordXyn (fieldN0 op) 0 0 (fieldN3 op) := by
  conv_lhs => rw [← wordXyn_fields op]
  show (fieldN0 op ++ nibble (fieldX op) ++ nibble (fieldY op) ++ fieldN3 op) &&&
    (BitVec.allOnes 4 ++ 0#4 ++ 0#4 ++ BitVec.allOnes 4) = fieldN0 op ++ 0#4 ++ 0#4 ++ fieldN3 op
  simp only [BitVec.and_append, BitVec.and_zero, BitVec.and_allOnes]

/-- The mask 0xF0FF keeps the group and the last byte. -/
theorem mask_x (op : Word) : op &&& 0xF0FF#16 = wordXkk (fieldN0 op) 0 (fieldKk op) := by
  conv_lhs => rw [← wordXkk_fields op]
  show (fieldN0 op ++ nibble (fieldX op) ++ fieldKk op) &&& (BitVec.allOnes 4 ++ 0#4 ++ BitVec.allOnes 8) =
    fieldN0 op ++ 0#4 ++ fieldKk op
  simp only [BitVec.and_append, BitVec.and_zero, BitVec.and_allOnes]

/-- The two bytes of an opcode put together again. -/
theorem wordOfBytes_bytes (op : Word) : wordOfBytes (highByte op) (lowByte op) = op := by
  apply BitVec.eq_of_toNat_eq
  rw [wordOfBytes, toNat_append_eq]
  simp only [highByte, lowByte, BitVec.extractLsb'_toNat, Nat.shiftRight_eq_div_pow]
  omega

end Sys2Proof
end

