-- ==== Sys2Proof/Laws/Draw.lean ====
section
/-! SUPPORT. The sprite XOR-blend pixel by pixel: every pixel under a 1 bit is toggled once, and a collision is a lit pixel
under a 1 bit (45_draw.md R162). -/

namespace Sys2Proof.Machine

@[simp] theorem Grid.pixel_setPixel (g : Grid) (y y' : Fin 32) (x x' : Fin 64) (b : Bool) :
    (g.setPixel y x b).pixel y' x' = if y' = y ∧ x' = x then b else g.pixel y' x' := by
  by_cases hy : y' = y
  · subst hy
    by_cases hx : x' = x
    · subst hx; simp [Grid.pixel, Grid.setPixel]
    · have : x.val ≠ x'.val := fun e => hx (Fin.ext e.symm)
      simp [Grid.pixel, Grid.setPixel, hx, Vector.getElem_set_ne, this]
  · have : y.val ≠ y'.val := fun e => hy (Fin.ext e.symm)
    simp [Grid.pixel, Grid.setPixel, hy, Vector.getElem_set_ne, this]

@[simp] theorem Grid.pixel_blank (y : Fin 32) (x : Fin 64) : Grid.blank.pixel y x = false := by
  simp [Grid.pixel, Grid.blank]

/-- Two grids with the same pixels are the same. -/
theorem Grid.ext_pixel {g h : Grid} (e : ∀ y x, g.pixel y x = h.pixel y x) : g = h := by
  apply Vector.ext; intro y hy
  apply Vector.ext; intro x hx
  exact e ⟨y, hy⟩ ⟨x, hx⟩

theorem blendBit_pixel (d : Blend) (y : Fin 32) (x : Fin 64) (bit : Bool) (y' : Fin 32) (x' : Fin 64) :
    (blendBit d y x bit).grid.pixel y' x' = (d.grid.pixel y' x' ^^ (bit && decide (y' = y ∧ x' = x))) := by
  unfold blendBit
  cases bit with
  | false => simp
  | true =>
    simp only [if_true, Grid.pixel_setPixel, Bool.true_and]
    by_cases h : y' = y ∧ x' = x
    · obtain ⟨rfl, rfl⟩ := h; simp
    · simp [h]

theorem blendBit_collision (d : Blend) (y : Fin 32) (x : Fin 64) (bit : Bool) :
    (blendBit d y x bit).collision = (d.collision || (bit && d.grid.pixel y x)) := by
  cases bit <;> simp [blendBit]

/-- A place and the sprite bit that falls on it. -/
abbrev Dot := Fin 32 × Fin 64 × Bool

/-- The dots of one sprite row. -/
def rowDots (y : Fin 32) (x0 : Nat) (b : Byte) : List Dot :=
  (List.range 8).map (fun c => (y, Fin.ofNat 64 (x0 + c), b.getLsbD (7 - c)))

/-- The dots of a sprite, row by row. -/
def spriteDots (y0 x0 : Nat) : List Byte → List Dot
  | [] => []
  | b :: bs => rowDots (Fin.ofNat 32 y0) x0 b ++ spriteDots (y0 + 1) x0 bs

/-- Blend dots one after the other. -/
def blendDots (d : Blend) (l : List Dot) : Blend := l.foldl (fun d t => blendBit d t.1 t.2.1 t.2.2) d

theorem blendRow_eq (d : Blend) (y : Fin 32) (x0 : Nat) (b : Byte) :
    blendRow d y x0 b = blendDots d (rowDots y x0 b) := by
  simp [blendRow, blendDots, rowDots, List.foldl_map]

theorem blendRows_eq (bs : List Byte) (d : Blend) (y0 x0 : Nat) :
    blendRows d y0 x0 bs = blendDots d (spriteDots y0 x0 bs) := by
  induction bs generalizing d y0 with
  | nil => rfl
  | cons b bs ih => simp [blendRows, spriteDots, ih, blendRow_eq, blendDots]

/-- No place stands under two of the dots. -/
def distinctPlaces (l : List Dot) : Prop := l.Pairwise (fun a b => ¬(a.1 = b.1 ∧ a.2.1 = b.2.1))

/-- Is the place under a dot with a 1 bit? -/
def dotted (l : List Dot) (y : Fin 32) (x : Fin 64) : Bool := l.any (fun t => t.2.2 && decide (y = t.1 ∧ x = t.2.1))

theorem blendDots_pixel (l : List Dot) (d : Blend) (h : distinctPlaces l) (y : Fin 32) (x : Fin 64) :
    (blendDots d l).grid.pixel y x = (d.grid.pixel y x ^^ dotted l y x) := by
  induction l generalizing d with
  | nil => simp [blendDots, dotted]
  | cons t l ih =>
    obtain ⟨h1, h2⟩ := List.pairwise_cons.mp h
    have e := ih (blendBit d t.1 t.2.1 t.2.2) h2
    simp only [blendDots, List.foldl_cons, dotted, List.any_cons] at e ⊢
    rw [e, blendBit_pixel]
    by_cases hp : y = t.1 ∧ x = t.2.1
    · have : (l.any fun t => t.2.2 && decide (y = t.1 ∧ x = t.2.1)) = false := by
        rw [List.any_eq_false]
        intro u hu; obtain ⟨rfl, rfl⟩ := hp
        have := h1 u hu; simp [this]
      rw [this]; simp [hp.1, hp.2]
    · simp [hp]

theorem blendDots_collision (l : List Dot) (d : Blend) (h : distinctPlaces l) :
    (blendDots d l).collision = (d.collision || l.any (fun t => t.2.2 && d.grid.pixel t.1 t.2.1)) := by
  induction l generalizing d with
  | nil => simp [blendDots]
  | cons t l ih =>
    obtain ⟨h1, h2⟩ := List.pairwise_cons.mp h
    have e := ih (blendBit d t.1 t.2.1 t.2.2) h2
    simp only [blendDots, List.foldl_cons, List.any_cons] at e ⊢
    rw [e, blendBit_collision, Bool.or_assoc]
    have untouched : ∀ u ∈ l, (blendBit d t.1 t.2.1 t.2.2).grid.pixel u.1 u.2.1 = d.grid.pixel u.1 u.2.1 := by
      intro u hu
      have : decide (u.1 = t.1 ∧ u.2.1 = t.2.1) = false := by
        simp only [decide_eq_false_iff_not]; exact fun e => h1 u hu ⟨e.1.symm, e.2.symm⟩
      rw [blendBit_pixel, this]; simp
    congr 2
    rw [Bool.eq_iff_iff, List.any_eq_true, List.any_eq_true]
    exact exists_congr fun u => and_congr_right fun hu => by rw [untouched u hu]

theorem mem_rowDots (y : Fin 32) (x0 : Nat) (b : Byte) (t : Dot) :
    t ∈ rowDots y x0 b ↔ ∃ c < 8, t = (y, Fin.ofNat 64 (x0 + c), b.getLsbD (7 - c)) := by
  simp only [rowDots, List.mem_map, List.mem_range]
  exact ⟨fun ⟨c, h, e⟩ => ⟨c, h, e.symm⟩, fun ⟨c, h, e⟩ => ⟨c, h, e.symm⟩⟩

theorem mem_spriteDots (bs : List Byte) (y0 x0 : Nat) (t : Dot) :
    t ∈ spriteDots y0 x0 bs ↔ ∃ r, ∃ h : r < bs.length, ∃ c < 8,
      t = (Fin.ofNat 32 (y0 + r), Fin.ofNat 64 (x0 + c), (bs[r]).getLsbD (7 - c)) := by
  induction bs generalizing y0 with
  | nil => simp [spriteDots]
  | cons b bs ih =>
    simp only [spriteDots, List.mem_append, mem_rowDots, ih]
    constructor
    · rintro (⟨c, hc, rfl⟩ | ⟨r, hr, c, hc, rfl⟩)
      · exact ⟨0, by simp, c, hc, rfl⟩
      · exact ⟨r + 1, by simpa using hr, c, hc, by simp [Nat.add_assoc, Nat.add_comm 1 r]⟩
    · rintro ⟨r, hr, c, hc, rfl⟩
      cases r with
      | zero => exact .inl ⟨c, hc, rfl⟩
      | succ r => exact .inr ⟨r, by simpa using hr, c, hc, by simp [Nat.add_assoc, Nat.add_comm 1 r]⟩

theorem distinctPlaces_rowDots (y : Fin 32) (x0 : Nat) (b : Byte) : distinctPlaces (rowDots y x0 b) := by
  simp only [distinctPlaces, rowDots, List.pairwise_map]
  refine (List.pairwise_lt_range (n := 8)).imp_of_mem ?_
  intro c c' hc hc' hlt ⟨_, e⟩
  have := congrArg Fin.val e
  simp only [Fin.ofNat, List.mem_range] at this hc hc'
  omega

/-- At most 32 rows of 8 columns touch each place at most once: "one draw touches each pixel at most once" (R162). -/
theorem distinctPlaces_spriteDots (bs : List Byte) (y0 x0 : Nat) (h : bs.length ≤ 32) :
    distinctPlaces (spriteDots y0 x0 bs) := by
  induction bs generalizing y0 with
  | nil => exact List.Pairwise.nil
  | cons b bs ih =>
    simp only [List.length_cons] at h
    refine List.pairwise_append.mpr ⟨distinctPlaces_rowDots _ _ _, ih _ (by omega), ?_⟩
    intro a ha t ht ⟨e, _⟩
    obtain ⟨c, _, rfl⟩ := (mem_rowDots _ _ _ _).mp ha
    obtain ⟨r, hr, c', _, rfl⟩ := (mem_spriteDots _ _ _ _).mp ht
    have := congrArg Fin.val e
    simp only [Fin.ofNat] at this
    omega

/-- The dots of a sprite read from memory are the pixels `spriteBit` names. -/
theorem dotted_spriteDots (m : Memory) (base n x0 y0 : Nat) (hn : n ≤ 32) (hx : x0 < 64) (hy : y0 < 32)
    (y : Fin 32) (x : Fin 64) :
    dotted (spriteDots y0 x0 (m.readBytes base n)) y x = spriteBit m base n x0 y0 y x := by
  rw [Bool.eq_iff_iff]
  simp only [dotted, List.any_eq_true, Bool.and_eq_true, decide_eq_true_eq, mem_spriteDots, spriteBit,
    Memory.length_readBytes]
  constructor
  · rintro ⟨t, ⟨r, hr, c, hc, rfl⟩, hb, hy', hx'⟩
    have e1 : (y.val + 32 - y0) % 32 = r := by subst hy'; simp only [Fin.ofNat]; omega
    have e2 : (x.val + 64 - x0) % 64 = c := by subst hx'; simp only [Fin.ofNat]; omega
    rw [e1, e2]
    exact ⟨⟨hr, hc⟩, by simpa using hb⟩
  · rintro ⟨⟨hr, hc⟩, hb⟩
    refine ⟨_, ⟨_, hr, _, hc, rfl⟩, by simpa using hb, Fin.ext ?_, Fin.ext ?_⟩
    · simp only [Fin.ofNat]; omega
    · simp only [Fin.ofNat]; omega

/-- The grid after a draw: every pixel is its old value XOR the sprite bit over it. -/
theorem blendRows_pixel (d : Blend) (m : Memory) (base n x0 y0 : Nat) (hn : n ≤ 32) (hx : x0 < 64) (hy : y0 < 32)
    (y : Fin 32) (x : Fin 64) :
    (blendRows d y0 x0 (m.readBytes base n)).grid.pixel y x =
      (d.grid.pixel y x ^^ spriteBit m base n x0 y0 y x) := by
  rw [blendRows_eq, blendDots_pixel _ _ (distinctPlaces_spriteDots _ _ _ (by simpa using hn)),
    dotted_spriteDots m base n x0 y0 hn hx hy]

/-- The collision after a draw: a pixel lit before it lies under a 1 bit. -/
theorem blendRows_collision (d : Blend) (m : Memory) (base n x0 y0 : Nat) (hn : n ≤ 32) (hx : x0 < 64) (hy : y0 < 32) :
    (blendRows d y0 x0 (m.readBytes base n)).collision = true ↔
      d.collision = true ∨ ∃ y x, spriteBit m base n x0 y0 y x = true ∧ d.grid.pixel y x = true := by
  rw [blendRows_eq, blendDots_collision _ _ (distinctPlaces_spriteDots _ _ _ (by simpa using hn)), Bool.or_eq_true]
  refine or_congr Iff.rfl ?_
  rw [List.any_eq_true]
  constructor
  · rintro ⟨t, ht, h⟩
    obtain ⟨hb, hp⟩ := (Bool.and_eq_true ..).mp h
    refine ⟨t.1, t.2.1, ?_, hp⟩
    rw [← dotted_spriteDots m base n x0 y0 hn hx hy, dotted, List.any_eq_true]
    exact ⟨t, ht, by simp [hb]⟩
  · rintro ⟨y, x, hs, hp⟩
    rw [← dotted_spriteDots m base n x0 y0 hn hx hy, dotted, List.any_eq_true] at hs
    obtain ⟨t, ht, h⟩ := hs
    simp only [Bool.and_eq_true, decide_eq_true_eq] at h
    obtain ⟨hb, rfl, rfl⟩ := h
    exact ⟨t, ht, by simp [hb, hp]⟩

end Sys2Proof.Machine
end

