-- ==== Sys2Proof/Laws/Key.lean ====
section
/-! SUPPORT. The lowest pressed key (44_key_instructions.md R153). -/

namespace Sys2Proof.Machine

theorem State.lowestKey_none (s : State) : s.lowestKey = none ↔ ∀ k, s.keyDown k = false := by
  simp [State.lowestKey, List.find?_eq_none]

theorem State.lowestKey_some (s : State) (k : Fin 16) :
    s.lowestKey = some k ↔ s.keyDown k = true ∧ ∀ j < k, s.keyDown j = false := by
  simp only [State.lowestKey, List.find?_eq_some_iff_getElem]
  constructor
  · rintro ⟨h, i, hi, e, hlt⟩
    refine ⟨h, fun j hj => ?_⟩
    have hik : i = k.val := by rw [← e]; simp
    have := hlt j.val (by rw [hik]; exact hj)
    simpa using this
  · rintro ⟨h, hlt⟩
    refine ⟨h, k.val, by simp, by simp, fun j hj => ?_⟩
    have := hlt ⟨j, by omega⟩ hj
    simpa using this

end Sys2Proof.Machine
end

