-- ==== Sys2Proof/Laws/PerInstr.lean ====
section
/-! SUPPORT. Per instruction: the encoded word is selected by the instruction's own row of opcode_table.json
(30_encoding.md R74). -/

namespace Sys2Proof.Laws.TableRow

/-- The mask and the match of the instruction's row in opcode_table.json. -/
def rowOf : Instr → Word × Word
  | .sys _ => (0xF000, 0x0000)
  | .cls => (0xFFFF, 0x00E0)
  | .ret => (0xFFFF, 0x00EE)
  | .jp _ => (0xF000, 0x1000)
  | .call _ => (0xF000, 0x2000)
  | .seByte _ _ => (0xF000, 0x3000)
  | .sneByte _ _ => (0xF000, 0x4000)
  | .seReg _ _ => (0xF00F, 0x5000)
  | .ldByte _ _ => (0xF000, 0x6000)
  | .addByte _ _ => (0xF000, 0x7000)
  | .ldReg _ _ => (0xF00F, 0x8000)
  | .orReg _ _ => (0xF00F, 0x8001)
  | .andReg _ _ => (0xF00F, 0x8002)
  | .xorReg _ _ => (0xF00F, 0x8003)
  | .addReg _ _ => (0xF00F, 0x8004)
  | .sub _ _ => (0xF00F, 0x8005)
  | .shr _ _ => (0xF00F, 0x8006)
  | .subn _ _ => (0xF00F, 0x8007)
  | .shl _ _ => (0xF00F, 0x800E)
  | .sneReg _ _ => (0xF00F, 0x9000)
  | .ldI _ => (0xF000, 0xA000)
  | .jpV0 _ => (0xF000, 0xB000)
  | .rnd _ _ => (0xF000, 0xC000)
  | .drw _ _ _ => (0xF000, 0xD000)
  | .skp _ => (0xF0FF, 0xE09E)
  | .sknp _ => (0xF0FF, 0xE0A1)
  | .ldVxDt _ => (0xF0FF, 0xF007)
  | .ldVxK _ => (0xF0FF, 0xF00A)
  | .ldDtVx _ => (0xF0FF, 0xF015)
  | .ldStVx _ => (0xF0FF, 0xF018)
  | .addI _ => (0xF0FF, 0xF01E)
  | .ldF _ => (0xF0FF, 0xF029)
  | .ldB _ => (0xF0FF, 0xF033)
  | .ldMemVx _ => (0xF0FF, 0xF055)
  | .ldVxMem _ => (0xF0FF, 0xF065)

/-- The word of the instruction selects the instruction's own row. -/
def Statement (i : Instr) : Prop := encode i &&& (rowOf i).1 = (rowOf i).2

/-- A mask of whole high and low fields keeps exactly those fields. -/
theorem and_mask_nnn (g : BitVec 4) (nnn : Addr12) : wordNnn g nnn &&& 0xF000#16 = wordNnn g 0 := by
  apply BitVec.eq_of_getLsbD_eq; intro i hi
  simp only [wordNnn, BitVec.getLsbD_and, BitVec.getLsbD_append]
  interval_cases i <;> simp

theorem and_mask_xkk (g : BitVec 4) (x : RegIdx) (kk : Byte) : wordXkk g x kk &&& 0xF000#16 = wordNnn g 0 := by
  rw [← wordNnn_fields (wordXkk g x kk), and_mask_nnn, fieldN0_wordXkk]

theorem and_mask_xyn (g : BitVec 4) (x y : RegIdx) (n : BitVec 4) : wordXyn g x y n &&& 0xF000#16 = wordNnn g 0 := by
  rw [← wordNnn_fields (wordXyn g x y n), and_mask_nnn, fieldN0_wordXyn]

theorem and_mask_xy (g : BitVec 4) (x y : RegIdx) (n : BitVec 4) : wordXyn g x y n &&& 0xF00F#16 = wordXyn g 0 0 n := by
  apply BitVec.eq_of_getLsbD_eq; intro i hi
  simp only [wordXyn, BitVec.getLsbD_and, BitVec.getLsbD_append]
  interval_cases i <;> simp [nibble]

theorem and_mask_x (g : BitVec 4) (x : RegIdx) (kk : Byte) : wordXkk g x kk &&& 0xF0FF#16 = wordXkk g 0 kk := by
  apply BitVec.eq_of_getLsbD_eq; intro i hi
  simp only [wordXkk, BitVec.getLsbD_and, BitVec.getLsbD_append]
  interval_cases i <;> simp [nibble]

theorem sys (nnn : Addr12) : Statement (.sys nnn) := (and_mask_nnn _ _).trans rfl
theorem cls : Statement .cls := rfl
theorem ret : Statement .ret := rfl
theorem jp (nnn : Addr12) : Statement (.jp nnn) := (and_mask_nnn _ _).trans rfl
theorem call (nnn : Addr12) : Statement (.call nnn) := (and_mask_nnn _ _).trans rfl
theorem seByte (x : RegIdx) (kk : Byte) : Statement (.seByte x kk) := (and_mask_xkk _ _ _).trans rfl
theorem sneByte (x : RegIdx) (kk : Byte) : Statement (.sneByte x kk) := (and_mask_xkk _ _ _).trans rfl
theorem seReg (x : RegIdx) (y : RegIdx) : Statement (.seReg x y) := (and_mask_xy _ _ _ _).trans rfl
theorem ldByte (x : RegIdx) (kk : Byte) : Statement (.ldByte x kk) := (and_mask_xkk _ _ _).trans rfl
theorem addByte (x : RegIdx) (kk : Byte) : Statement (.addByte x kk) := (and_mask_xkk _ _ _).trans rfl
theorem ldReg (x : RegIdx) (y : RegIdx) : Statement (.ldReg x y) := (and_mask_xy _ _ _ _).trans rfl
theorem orReg (x : RegIdx) (y : RegIdx) : Statement (.orReg x y) := (and_mask_xy _ _ _ _).trans rfl
theorem andReg (x : RegIdx) (y : RegIdx) : Statement (.andReg x y) := (and_mask_xy _ _ _ _).trans rfl
theorem xorReg (x : RegIdx) (y : RegIdx) : Statement (.xorReg x y) := (and_mask_xy _ _ _ _).trans rfl
theorem addReg (x : RegIdx) (y : RegIdx) : Statement (.addReg x y) := (and_mask_xy _ _ _ _).trans rfl
theorem sub (x : RegIdx) (y : RegIdx) : Statement (.sub x y) := (and_mask_xy _ _ _ _).trans rfl
theorem shr (x : RegIdx) (y : RegIdx) : Statement (.shr x y) := (and_mask_xy _ _ _ _).trans rfl
theorem subn (x : RegIdx) (y : RegIdx) : Statement (.subn x y) := (and_mask_xy _ _ _ _).trans rfl
theorem shl (x : RegIdx) (y : RegIdx) : Statement (.shl x y) := (and_mask_xy _ _ _ _).trans rfl
theorem sneReg (x : RegIdx) (y : RegIdx) : Statement (.sneReg x y) := (and_mask_xy _ _ _ _).trans rfl
theorem ldI (nnn : Addr12) : Statement (.ldI nnn) := (and_mask_nnn _ _).trans rfl
theorem jpV0 (nnn : Addr12) : Statement (.jpV0 nnn) := (and_mask_nnn _ _).trans rfl
theorem rnd (x : RegIdx) (kk : Byte) : Statement (.rnd x kk) := (and_mask_xkk _ _ _).trans rfl
theorem drw (x : RegIdx) (y : RegIdx) (n : Fin 16) : Statement (.drw x y n) := (and_mask_xyn _ _ _ _).trans rfl
theorem skp (x : RegIdx) : Statement (.skp x) := (and_mask_x _ _ _).trans rfl
theorem sknp (x : RegIdx) : Statement (.sknp x) := (and_mask_x _ _ _).trans rfl
theorem ldVxDt (x : RegIdx) : Statement (.ldVxDt x) := (and_mask_x _ _ _).trans rfl
theorem ldVxK (x : RegIdx) : Statement (.ldVxK x) := (and_mask_x _ _ _).trans rfl
theorem ldDtVx (x : RegIdx) : Statement (.ldDtVx x) := (and_mask_x _ _ _).trans rfl
theorem ldStVx (x : RegIdx) : Statement (.ldStVx x) := (and_mask_x _ _ _).trans rfl
theorem addI (x : RegIdx) : Statement (.addI x) := (and_mask_x _ _ _).trans rfl
theorem ldF (x : RegIdx) : Statement (.ldF x) := (and_mask_x _ _ _).trans rfl
theorem ldB (x : RegIdx) : Statement (.ldB x) := (and_mask_x _ _ _).trans rfl
theorem ldMemVx (x : RegIdx) : Statement (.ldMemVx x) := (and_mask_x _ _ _).trans rfl
theorem ldVxMem (x : RegIdx) : Statement (.ldVxMem x) := (and_mask_x _ _ _).trans rfl

end Sys2Proof.Laws.TableRow
end

