-- ==== Sys2Proof/Tests/Slice0.lean ====
section
/-! SUPPORT. The model's own tests. The expected results are those of 95_test_vectors.md (the vector is named) or are
worked by hand from the rule named; the words are written out from the opcode map of 30_encoding.md. -/

namespace Sys2Proof.Tests

open Sys2Proof Sys2Proof.Machine

/-! ## Helpers -/

/-- The state after the machine's next step. -/
def again (s : State) : State :=
  match step s with
  | .next t => t
  | .fault _ | .refused _ => s

/-- The state after one instruction word, run where `PC` stands. -/
def after (s : State) (op : Nat) : State := again (s.withFetchWord 16 op)

/-- The state after one event of the schedule. -/
def afterEvent (e : Event) (s : State) : State := again { s with schedule := [e] }

/-- The reset state with some registers written. -/
def withRegs (l : List (RegIdx × Byte)) : State := l.foldl (fun s p => s.setReg p.1 p.2) State.reset

/-- A state with bytes stored. -/
def withBytes (s : State) (a : Nat) (bs : List Byte) : State := s.setMem (s.mem.writeBytes a bs)

/-- Are all of the pixels, given as row and column, lit? -/
def allLit (s : State) (l : List (Fin 32 × Fin 64)) : Bool := l.all (fun p => Grid.pixel s.fb p.1 p.2)

/-- Is one of them lit? -/
def someLit (s : State) (l : List (Fin 32 × Fin 64)) : Bool := l.any (fun p => Grid.pixel s.fb p.1 p.2)

/-- Did the step end in the fault record given? -/
def faultedWith (s : State) (kind : FaultKind) (opcode pc : Word) (addr : Addr17) : Bool :=
  s.run == .faulted && s.fault == ⟨kind, opcode, pc, addr⟩

/-! ## Well-formed instructions: the one check, with terms it refuses and its neighbours -/

theorem test_sys_at_cls_is_ill_formed : Instr.wellFormed (.sys 0x0E0) = false := by decide
theorem test_sys_at_ret_is_ill_formed : Instr.wellFormed (.sys 0x0EE) = false := by decide
theorem test_sys_neighbours_are_well_formed :
    Instr.wellFormed (.sys 0x0DF) = true ∧ Instr.wellFormed (.sys 0x0E1) = true ∧ Instr.wellFormed (.sys 0x0ED) = true ∧
    Instr.wellFormed (.sys 0x0EF) = true := by decide

/-! ## Decoding: a word of every row of the opcode map (R75 to R79), written out by hand -/

theorem test_decode_group_0 : decodeWord 0x0123 = .ok (.sys 0x123) ∧ decodeWord 0x00E0 = .ok .cls ∧
    decodeWord 0x00EE = .ok .ret := by decide
theorem test_decode_nnn : decodeWord 0x1ABC = .ok (.jp 0xABC) ∧ decodeWord 0x2DEF = .ok (.call 0xDEF) ∧
    decodeWord 0xA123 = .ok (.ldI 0x123) ∧ decodeWord 0xB456 = .ok (.jpV0 0x456) := by decide
theorem test_decode_xkk : decodeWord 0x3A7F = .ok (.seByte 10 0x7F) ∧ decodeWord 0x4B80 = .ok (.sneByte 11 0x80) ∧
    decodeWord 0x6C01 = .ok (.ldByte 12 0x01) ∧ decodeWord 0x7DFE = .ok (.addByte 13 0xFE) ∧
    decodeWord 0xCE0F = .ok (.rnd 14 0x0F) := by decide
theorem test_decode_xy : decodeWord 0x5120 = .ok (.seReg 1 2) ∧ decodeWord 0x9340 = .ok (.sneReg 3 4) := by decide
theorem test_decode_group_8 : decodeWord 0x8120 = .ok (.ldReg 1 2) ∧ decodeWord 0x8341 = .ok (.orReg 3 4) ∧
    decodeWord 0x8562 = .ok (.andReg 5 6) ∧ decodeWord 0x8783 = .ok (.xorReg 7 8) ∧
    decodeWord 0x89A4 = .ok (.addReg 9 10) ∧ decodeWord 0x8BC5 = .ok (.sub 11 12) ∧
    decodeWord 0x8DE6 = .ok (.shr 13 14) ∧ decodeWord 0x8F07 = .ok (.subn 15 0) ∧
    decodeWord 0x812E = .ok (.shl 1 2) := by decide
theorem test_decode_drw : decodeWord 0xD12F = .ok (.drw 1 2 15) ∧ decodeWord 0xDFE0 = .ok (.drw 15 14 0) := by decide
theorem test_decode_group_E : decodeWord 0xE19E = .ok (.skp 1) ∧ decodeWord 0xEFA1 = .ok (.sknp 15) := by decide
theorem test_decode_group_F : decodeWord 0xF107 = .ok (.ldVxDt 1) ∧ decodeWord 0xF20A = .ok (.ldVxK 2) ∧
    decodeWord 0xF315 = .ok (.ldDtVx 3) ∧ decodeWord 0xF418 = .ok (.ldStVx 4) ∧ decodeWord 0xF51E = .ok (.addI 5) ∧
    decodeWord 0xF629 = .ok (.ldF 6) ∧ decodeWord 0xF733 = .ok (.ldB 7) ∧ decodeWord 0xF855 = .ok (.ldMemVx 8) ∧
    decodeWord 0xF965 = .ok (.ldVxMem 9) := by decide

/-- B-DEC: the illegal words, each rejected under its group's name. -/
theorem test_decode_rejects :
    ([0x5121, 0x512F].all fun w => decodeWord (BitVec.ofNat 16 w) == .error .illegalGroup5) = true ∧
    ([0x8128, 0x8129, 0x812A, 0x812B, 0x812C, 0x812D, 0x812F].all
      fun w => decodeWord (BitVec.ofNat 16 w) == .error .illegalGroup8) = true ∧
    ([0x9121, 0x912F].all fun w => decodeWord (BitVec.ofNat 16 w) == .error .illegalGroup9) = true ∧
    ([0xE000, 0xE19D, 0xE19F, 0xE1A0, 0xE1A2, 0xE1FF].all
      fun w => decodeWord (BitVec.ofNat 16 w) == .error .illegalGroupE) = true ∧
    ([0xF000, 0xF106, 0xF108, 0xF10B, 0xF116, 0xF11D, 0xF12A, 0xF130, 0xF134, 0xF156, 0xF164, 0xF175, 0xF185, 0xF1FF].all
      fun w => decodeWord (BitVec.ofNat 16 w) == .error .illegalGroupF) = true := by decide

/-- R80, R81: legal words at the edges of their groups, and the illegal ones beside them. -/
theorem test_legal_words :
    ([0x00E0, 0x00EE, 0x1000, 0x5FF0, 0x800E, 0x9000, 0xE09E, 0xF065].all legalWord) = true ∧
    ([0x0000, 0x00EF, 0x5FF1, 0x800F, 0x9008, 0xE09F, 0xF066].any legalWord) = false := by decide

/-- The decoder reads two bytes, the high one first, and gives the rest back; one byte is no instruction. -/
theorem test_decode_bytes : decode [0x80, 0x14, 0xFF] = .ok (.addReg 0 1, [0xFF]) ∧ decode [0x80] = .error .truncated ∧
    decodeTableWord 16 0x8014 = some (.addReg 0 1) ∧ decodeTableWord 16 0xF1FF = none := by decide

/-- The encoder on the words of the document's scenario (30_encoding.md, warning on sources). -/
theorem test_encode_scenario : encode (.ldByte 0 10) = 0x600A ∧ encode (.ldByte 1 5) = 0x6105 ∧
    encode (.addReg 0 1) = 0x8014 ∧ encode (.jp 0x200) = 0x1200 := by decide

/-! ## Control flow (B-CF) -/

/-- B-DEC, R101. -/
theorem test_sys : faultedWith (after State.reset 0x0123) .decodeError 0x0123 0x0200 0 = true := by decide
/-- B-DEC: an illegal word of another group. -/
theorem test_illegal_word : faultedWith (after State.reset 0x812F) .decodeError 0x812F 0x0200 0 = true := by decide
/-- B-CF 4. -/
theorem test_jp : (after State.reset 0x1201).pc = 0x0201 := by decide
/-- B-CF 5, 8. -/
theorem test_call : (after { State.reset with pc := 0x0204 } 0x2210).stack[0] = 0x0206 ∧
    (after { State.reset with pc := 0x0204 } 0x2210).sp = 1 ∧ (after { State.reset with pc := 0x0204 } 0x2210).pc = 0x0210 ∧
    (after { State.reset with sp := 15 } 0x2300).stack[15] = 0x0202 ∧ (after { State.reset with sp := 15 } 0x2300).sp = 16 := by
  decide
/-- B-CF 7. -/
theorem test_call_overflow : faultedWith (after { State.reset with sp := 16 } 0x2300) .stackOverflow 0x2300 0x0200 0 = true ∧
    (after { State.reset with sp := 16 } 0x2300).sp = 16 := by decide
/-- B-CF 10: the popped value itself, and the slot is kept. -/
theorem test_ret : let s := { State.reset with sp := 1, stack := State.reset.stack.set 0 0x1000 }
    (after s 0x00EE).pc = 0x1000 ∧ (after s 0x00EE).sp = 0 ∧ (after s 0x00EE).stack[0] = 0x1000 ∧
    faultedWith (again (after s 0x00EE)) .memoryFault 0x0000 0x1000 0x1000 = true := by decide
/-- B-CF 9. -/
theorem test_ret_underflow : faultedWith (after State.reset 0x00EE) .stackUnderflow 0x00EE 0x0200 0 = true := by decide
/-- B-CF 11, 12. -/
theorem test_se_byte : (after (withRegs [(3, 0x42)]) 0x3342).pc = 0x0204 ∧
    (after (withRegs [(3, 0x42)]) 0x3343).pc = 0x0202 := by decide
/-- B-CF 13, 14. -/
theorem test_sne_byte : (after (withRegs [(3, 0x42)]) 0x4342).pc = 0x0202 ∧
    (after (withRegs [(3, 0x42)]) 0x4343).pc = 0x0204 := by decide
/-- B-CF 15, 16. -/
theorem test_se_reg : (after (withRegs [(1, 9), (2, 9)]) 0x5120).pc = 0x0204 ∧
    (after (withRegs [(1, 9), (2, 8)]) 0x5120).pc = 0x0202 := by decide
/-- B-CF 18, 19. -/
theorem test_sne_reg : (after (withRegs [(1, 9), (2, 8)]) 0x9120).pc = 0x0204 ∧
    (after State.reset 0x9AA0).pc = 0x0202 := by decide
/-- B-CF 22. -/
theorem test_jp_v0 : (after (withRegs [(0, 0xFF)]) 0xBFFF).pc = 0x10FE ∧
    faultedWith (again (after (withRegs [(0, 0xFF)]) 0xBFFF)) .memoryFault 0x0000 0x10FE 0x10FE = true := by decide
/-- B-CF 3, 23: the fetch whose second byte does not exist. -/
theorem test_fetch_edge : faultedWith (again (after State.reset 0x1FFF)) .memoryFault 0x0000 0x0FFF 0x1000 = true := by
  decide

/-! ## Register load and ALU (B-ALU) -/

/-- B-ALU 1, 2. -/
theorem test_ld_byte : (after State.reset 0x6A7F).v[10] = 0x7F ∧ (after State.reset 0x6FFF).v[15] = 0xFF := by decide
/-- B-ALU 3. -/
theorem test_add_byte : (after (withRegs [(3, 0xFF)]) 0x7302).v[3] = 0x01 ∧
    (after (withRegs [(3, 0xFF)]) 0x7302).v[15] = 0x00 := by decide
/-- B-ALU 5. -/
theorem test_ld_reg : (after (withRegs [(4, 0x7E)]) 0x8340).v[3] = 0x7E := by decide
/-- B-ALU 6. -/
theorem test_logic : let s := withRegs [(0, 0xF0), (1, 0x3C), (15, 1)]
    (after s 0x8011).v[0] = 0xFC ∧ (after s 0x8012).v[0] = 0x30 ∧ (after s 0x8013).v[0] = 0xCC ∧
    (after s 0x8011).v[15] = 1 ∧ (after s 0x8012).v[15] = 1 ∧ (after s 0x8013).v[15] = 1 := by decide
/-- B-ALU 8, 9. -/
theorem test_add_reg : (after (withRegs [(0, 0xFF), (1, 0x01)]) 0x8014).v[0] = 0x00 ∧
    (after (withRegs [(0, 0xFF), (1, 0x01)]) 0x8014).v[15] = 1 ∧
    (after (withRegs [(0, 0xFF), (15, 1)]) 0x8014).v[15] = 0 := by decide
/-- B-ALU 23, 25: the flag wins in `VF`, and an old `VF` is an operand. -/
theorem test_add_reg_vf : (after (withRegs [(15, 0xC8), (1, 0x64)]) 0x8F14).v[15] = 1 ∧
    (after (withRegs [(0, 0x10), (15, 0x01)]) 0x80F4).v[0] = 0x11 ∧
    (after (withRegs [(0, 0x10), (15, 0x01)]) 0x80F4).v[15] = 0 := by decide
/-- B-ALU 12, 13. -/
theorem test_sub : (after (withRegs [(0, 5), (1, 10), (15, 1)]) 0x8015).v[0] = 0xFB ∧
    (after (withRegs [(0, 5), (1, 10), (15, 1)]) 0x8015).v[15] = 0 ∧
    (after (withRegs [(0, 7), (1, 7)]) 0x8015).v[15] = 1 := by decide
/-- B-ALU 15, 16. -/
theorem test_shr : (after (withRegs [(2, 0x05)]) 0x8206).v[2] = 0x02 ∧ (after (withRegs [(2, 0x05)]) 0x8206).v[15] = 1 ∧
    (after (withRegs [(2, 0x80), (7, 0xFF)]) 0x8276).v[2] = 0x40 ∧
    (after (withRegs [(2, 0x80), (7, 0xFF)]) 0x8276).v[7] = 0xFF := by decide
/-- B-ALU 18, 19. -/
theorem test_subn : (after (withRegs [(0, 5), (1, 10)]) 0x8017).v[0] = 5 ∧
    (after (withRegs [(0, 5), (1, 10)]) 0x8017).v[15] = 1 ∧
    (after (withRegs [(0, 10), (1, 5), (15, 1)]) 0x8017).v[0] = 0xFB ∧
    (after (withRegs [(0, 10), (1, 5), (15, 1)]) 0x8017).v[15] = 0 := by decide
/-- B-ALU 21, 22. -/
theorem test_shl : (after (withRegs [(2, 0x81)]) 0x820E).v[2] = 0x02 ∧ (after (withRegs [(2, 0x81)]) 0x820E).v[15] = 1 ∧
    (after (withRegs [(2, 0x40), (15, 1)]) 0x820E).v[2] = 0x80 ∧
    (after (withRegs [(2, 0x40), (15, 1)]) 0x820E).v[15] = 0 := by decide
/-- B-ALU 27, 30. -/
theorem test_shift_vf : (after (withRegs [(15, 0x03)]) 0x8F06).v[15] = 1 ∧
    (after (withRegs [(15, 0x7F)]) 0x8F0E).v[15] = 0 := by decide

/-! ## Memory and address register (B-MEM) -/

/-- B-MEM 1. -/
theorem test_ld_i : (after State.reset 0xAFFF).i = 0x0FFF := by decide
/-- B-MEM 3, 4. -/
theorem test_add_i : (after { withRegs [(2, 0x01)] with i := 0x0FFF } 0xF21E).i = 0x1000 ∧
    (after { withRegs [(2, 0x02)] with i := 0xFFFF } 0xF21E).i = 0x0001 := by decide
/-- B-MEM 5. -/
theorem test_ld_f : (after (withRegs [(0, 0x05)]) 0xF029).i = 0x0019 ∧ (after (withRegs [(0, 0x1A)]) 0xF029).i = 0x0032 ∧
    (after (withRegs [(0, 0xFF)]) 0xF029).i = 0x004B := by decide
/-- B-MEM 6, 8. -/
theorem test_ld_b : (after { withRegs [(0, 234)] with i := 0x0300 } 0xF033).mem.readBytes 0x2FF 5 = [0, 2, 3, 4, 0] ∧
    (after { withRegs [(0, 0x7B)] with i := 0x0FFD } 0xF033).mem.readBytes 0xFFD 3 = [1, 2, 3] := by decide
/-- B-MEM 9, 10. -/
theorem test_ld_b_fault :
    faultedWith (after { withRegs [(0, 0x7B)] with i := 0x0FFE } 0xF033) .memoryFault 0xF033 0x0200 0x1000 = true ∧
    (after { withRegs [(0, 0x7B)] with i := 0x0FFE } 0xF033).mem.readBytes 0xFFE 2 = [0, 0] ∧
    faultedWith (after { State.reset with i := 0x2000 } 0xF033) .memoryFault 0xF033 0x0200 0x2000 = true := by decide
/-- B-MEM 11, 12. -/
theorem test_block_store :
    (after { withRegs [(0, 0x11), (1, 0x22), (2, 0x33)] with i := 0x0400 } 0xF255).mem.readBytes 0x400 4 =
      [0x11, 0x22, 0x33, 0x00] ∧
    (after { withRegs [(0, 0xAB)] with i := 0x0FFF } 0xF055).mem.read 0xFFF = 0xAB := by decide
/-- B-MEM 13, 19: no partial store; the font region is writable. -/
theorem test_block_store_edges :
    faultedWith (after { withRegs [(0, 0xAB), (1, 0xCD)] with i := 0x0FFF } 0xF155) .memoryFault 0xF155 0x0200 0x1000 = true ∧
    (after { withRegs [(0, 0xAB), (1, 0xCD)] with i := 0x0FFF } 0xF155).mem.read 0xFFF = 0x00 ∧
    (after State.reset 0xF055).mem.readBytes 0 2 = [0x00, 0x90] := by decide
/-- B-MEM 15, 16. -/
theorem test_block_load : let s := { withBytes (withRegs [(3, 0x99)]) 0x300 [2, 3, 4] with i := 0x0300 }
    (after s 0xF265).v.toList.take 4 = [2, 3, 4, 0x99] ∧ (after s 0xF265).i = 0x0300 ∧
    (after State.reset 0xF465).v.toList.take 6 = [0xF0, 0x90, 0x90, 0x90, 0xF0, 0x00] := by decide
/-- B-MEM 17. -/
theorem test_block_load_fault :
    faultedWith (after { State.reset with i := 0x0FF8 } 0xF865) .memoryFault 0xF865 0x0200 0x1000 = true := by decide

/-! ## Timers (B-TMR) -/

/-- B-TMR 3. -/
theorem test_ld_vx_dt : (after { State.reset with dt := 0x3B } 0xF407).v[4] = 0x3B := by decide
/-- B-TMR 1. -/
theorem test_ld_dt : (after (withRegs [(2, 0x3C)]) 0xF215).dt = 0x3C := by decide
/-- B-TMR 2. -/
theorem test_ld_st : (after (withRegs [(2, 0x08)]) 0xF218).st = 0x08 := by decide
/-- B-TMR 4, 5, 6. -/
theorem test_ticks : let s := { State.reset with run := .running, dt := 1, st := 5 }
    (afterEvent .dtTick s).dt = 0 ∧ (afterEvent .dtTick s).st = 5 ∧ (afterEvent .dtTick (afterEvent .dtTick s)).dt = 0 ∧
    (afterEvent .stTick s).st = 4 ∧ (afterEvent .stTick s).dt = 1 ∧
    (afterEvent .dtTick { s with run := .stopped }).dt = 1 := by decide

/-! ## Keys (B-KEY) -/

/-- B-KEY 1, 2, 5. -/
theorem test_skp : let k := State.reset.key.set 10 true
    (after { withRegs [(5, 0x0A)] with key := k } 0xE59E).pc = 0x0204 ∧ (after (withRegs [(5, 0x0A)]) 0xE59E).pc = 0x0202 ∧
    (after { withRegs [(5, 0x3A)] with key := k } 0xE59E).pc = 0x0204 := by decide
/-- B-KEY 3, 4. -/
theorem test_sknp : (after { withRegs [(5, 0x0A)] with key := State.reset.key.set 10 true } 0xE5A1).pc = 0x0202 ∧
    (after (withRegs [(5, 0x0A)]) 0xE5A1).pc = 0x0204 := by decide
/-- B-KEY 7. -/
theorem test_ld_vx_k : let s := { State.reset with key := (State.reset.key.set 7 true).set 2 true }
    (after s 0xF30A).v[3] = 0x02 ∧ (after s 0xF30A).pc = 0x0202 := by decide
/-- B-KEY 6: nothing changes. -/
theorem test_ld_vx_k_holds : step (State.reset.withFetchWord 16 0xF30A) = .next (State.reset.withFetchWord 16 0xF30A) :=
  rfl

/-! ## Framebuffer (B-DRW) -/

/-- B-DRW 1. -/
theorem test_cls : let s := { withRegs [(15, 1)] with fb := Grid.setPixel (Grid.setPixel Grid.blank 3 4 true) 31 63 true }
    allLit s [(3, 4), (31, 63)] = true ∧ someLit (after s 0x00E0) [(3, 4), (31, 63)] = false ∧
    (after s 0x00E0).v[15] = 1 := by decide +kernel
/-- B-DRW 3: both edges wrap. -/
theorem test_drw_wraps : let s := after { withRegs [(1, 62), (2, 30), (15, 1)] with i := 0x0019 } 0xD125
    allLit s [(30, 62), (30, 1), (31, 62), (0, 0), (1, 1), (2, 63)] = true ∧
    someLit s [(30, 61), (30, 2), (31, 63), (0, 2), (1, 62), (3, 62), (29, 62)] = false ∧ s.v[15] = 0 := by decide +kernel
/-- B-DRW 8: one pixel erased, one set. -/
theorem test_drw_collides :
    let s := { withBytes State.reset 0x300 [0xC0] with i := 0x0300, fb := Grid.setPixel Grid.blank 0 0 true }
    Grid.pixel (after s 0xD011).fb 0 0 = false ∧ Grid.pixel (after s 0xD011).fb 0 1 = true ∧ (after s 0xD011).v[15] = 1 := by
  decide +kernel
/-- B-DRW 9, 12, 13: the old `VF` is the coordinate; the bound is checked before any write; no row checks nothing. -/
theorem test_drw_edges :
    Grid.pixel (after { withBytes (withRegs [(15, 5)]) 0x300 [0x80] with i := 0x0300 } 0xDF01).fb 0 5 = true ∧
    faultedWith (after { withRegs [(15, 7)] with i := 0x0FFE } 0xD013) .memoryFault 0xD013 0x0200 0x1000 = true ∧
    (after { withRegs [(15, 7)] with i := 0x0FFE } 0xD013).v[15] = 7 ∧
    (after { withRegs [(15, 7)] with i := 0x1000 } 0xD010).v[15] = 0 ∧
    (after { withRegs [(15, 7)] with i := 0x1000 } 0xD010).pc = 0x0202 := by decide +kernel
/-- B-RST 10. -/
theorem test_snapshot : let s := { State.reset with fb := Grid.setPixel Grid.blank 2 3 true }
    (fbOut s).getLsbD 131 = true ∧ (fbOut s).getLsbD 130 = false := by
  refine ⟨?_, ?_⟩ <;> rw [fbOut, BitVec.getLsbD_ofFnLE] <;> rfl

/-! ## Random (B-RND) -/

/-- B-RND 1, 2. -/
theorem test_rnd : (after { State.reset with rndIn := [0xB7] } 0xC30F).v[3] = 0xB7 ∧
    (after { State.reset with rndIn := [0xB7], cfg := { defaultConfig with rndMasked := true } } 0xC30F).v[3] = 0x07 := by
  decide
/-- With no byte supplied the draw is taken all the same: `PC` advances and the draw is counted. -/
theorem test_rnd_free : (after State.reset 0xC30F).pc = 0x0202 ∧ (after State.reset 0xC30F).draws = 1 := by decide

/-! ## Host and reset (B-RST) -/

/-- B-RST 1. -/
theorem test_reset_loads :
    let s := afterEvent (.reset [0x60, 0x0A, 0x61, 0x05]) { withRegs [(3, 7)] with run := .stopped, dt := 9, sp := 4 }
    s.mem.readBytes 0x1FF 6 = [0x00, 0x60, 0x0A, 0x61, 0x05, 0x00] ∧ s.mem.readBytes 0x04B 6 = [0xF0, 0x80, 0xF0, 0x80, 0x80, 0x00] ∧
    s.pc = 0x0200 ∧ s.v[3] = 0 ∧ s.dt = 0 ∧ s.sp = 0 ∧ s.run = .idle := by decide +kernel
/-- B-RST 3. -/
theorem test_load_error : let s := afterEvent (.reset (List.replicate 3585 0xAA)) State.reset
    faultedWith s .loadError 0x0000 0x0200 0x1000 = true ∧ s.mem.read 0x200 = 0x00 ∧
    (afterEvent .start s).cmdError = true ∧ (afterEvent .start s).run = .faulted := by decide +kernel
/-- B-RST 5, 6, 7. -/
theorem test_start_stop : let r := afterEvent .start State.reset
    (afterEvent .stop State.reset).cmdError = true ∧ (afterEvent .stop State.reset).run = .idle ∧
    r.run = .running ∧ r.cmdError = false ∧ (afterEvent .start r).cmdError = true ∧ (afterEvent .stop r).run = .stopped ∧
    (afterEvent .stop (afterEvent .stop r)).cmdError = false ∧ (afterEvent .start (afterEvent .stop r)).run = .stopped := by
  decide
/-- B-RST 9: a `CPU` grant before `start` does nothing. -/
theorem test_idle_cpu : step { State.reset with schedule := [.cpu] } = .next State.reset := rfl
/-- B-RST 11: the empty program. -/
theorem test_empty_program :
    faultedWith (again (afterEvent .start State.reset)) .decodeError 0x0000 0x0200 0 = true := by decide
/-- R189: coincident requests come out in the fixed order, and none is lost. -/
theorem test_arbiter : grantOrder [] [[.cpu, .start, .stTick, .dtTick], [.dtTick], []] =
    [.dtTick, .dtTick, .stTick, .start, .cpu] := by decide
/-- R196, R201: the outputs of a faulted machine (program P5). -/
theorem test_fault_outputs : let s := after State.reset 0x00EE
    runStateOut s = 3 ∧ faultKindOut s = 4 ∧ faultOpcodeOut s = 0x00EE ∧ faultPcOut s = 0x0200 ∧ faultAddrOut s = 0 := by
  decide

/-! ## Witnesses: for every statement with hypotheses a state, and for every clause a boundary value, that meet them -/

/-- A running state with a word at `PC`. -/
def ready (op : Nat) : State := State.reset.withFetchWord 16 op

/-- The same at the last address an instruction can stand. -/
def readyAtEnd (op : Nat) : State := { State.reset with pc := 0x0FFE }.withFetchWord 16 op

theorem witness_DecodeEncodeRoundTrip : Instr.wellFormed (.drw 15 15 15) = true ∧ Instr.wellFormed (.sys 0xFFF) = true := by
  decide
theorem witness_EncodeDecodeRoundTrip : decodeWord 0xFF65 = .ok (.ldVxMem 15) ∧ decodeWord 0x0000 = .ok (.sys 0) := by decide
theorem witness_DecoderAgreesWithTable : rowsMajor.head?.isSome = true ∧ opcodeTable.length = 35 := by decide
theorem witness_IllegalWordsRaiseDecodeError :
    ((ready 0xFFFF).run = .running ∧ (ready 0xFFFF).pc.toNat ≤ 0xFFE ∧ illegalWord (wordAtPc (ready 0xFFFF)).toNat = true) ∧
    ((readyAtEnd 0xFF65).run = .running ∧ (readyAtEnd 0xFF65).pc.toNat ≤ 0xFFE ∧
      illegalWord (wordAtPc (readyAtEnd 0xFF65)).toNat = false) := by decide
theorem witness_StepRunsDecodedInstruction :
    ((readyAtEnd 0x6007).run = .running ∧ (readyAtEnd 0x6007).pc.toNat ≤ 0xFFE ∧
      decodeWord (wordAtPc (readyAtEnd 0x6007)) = .ok (.ldByte 0 7) ∧ (readyAtEnd 0x6007).schedule = []) ∧
    (let s := { readyAtEnd 0x6007 with schedule := [.cpu, .dtTick] }
     decodeWord (wordAtPc s) = .ok (.ldByte 0 7) ∧ s.run = .running ∧ s.schedule = .cpu :: [.dtTick]) := by decide
theorem witness_FetchChecksBothBytes :
    (0x1000#16).toNat > 0xFFF ∧ (0x0FFF#16).toNat = 0xFFF ∧ (0x0FFE#16).toNat ≤ 0xFFE ∧
    (let s := { ready 0x1200 with pc := 0x0FFF }
     s.run = .running ∧ 0xFFE < s.pc.toNat) := by decide
theorem witness_CpuIsNeverStuck : (ready 0x1200).run = .running ∧ State.reset.run ≠ .running := by decide
theorem witness_SelfJumpIsFixedPoint : ((ready 0x1200).run = .running ∧ Finished (ready 0x1200)) ∧
    ((readyAtEnd 0x1FFE).run = .running ∧ Finished (readyAtEnd 0x1FFE)) := by decide
theorem witness_FinishedProgramStaysSafe : let s := { ready 0x1200 with schedule := [.dtTick, .setKey 3 true, .cpu, .stop] }
    NoFault s ∧ s.run ≠ .faulted ∧ Finished s ∧ (∀ image, Event.reset image ∉ s.schedule) := by
  refine ⟨rfl, by decide, by decide, fun image h => ?_⟩
  simp at h
theorem witness_PlacedWordRunsNext : (0x0FFE#16).toNat ≤ 0xFFE ∧ decodeWord 0x6007 = .ok (.ldByte 0 7) := by decide
theorem witness_FaultEntryIsPrecise_fetch : let s := { ready 0 with pc := 0x0FFF }
    s.run = .running ∧ 0xFFE < s.pc.toNat ∧ ∃ t, cpuStep s = .next t ∧ t.run = .faulted :=
  ⟨rfl, by decide, _, rfl, rfl⟩
theorem witness_FaultEntryIsPrecise_memory : let s := { readyAtEnd 0xF055 with i := 0x1000 }
    s.run = .running ∧ s.pc.toNat ≤ 0xFFE ∧ ∃ t, cpuStep s = .next t ∧ t.run = .faulted ∧ t.fault.kind = .memoryFault :=
  ⟨rfl, by decide, _, rfl, rfl, rfl⟩
theorem witness_FaultEntryIsPrecise_stack :
    (ready 0x00EE).run = .running ∧ ∃ t, cpuStep (ready 0x00EE) = .next t ∧ t.run = .faulted ∧ t.fault.kind = .stackUnderflow :=
  ⟨rfl, _, rfl, rfl, rfl⟩
theorem witness_FaultEntryIsPrecise_load : 3584 < (List.replicate 3585 (0xAA : Byte)).length := by
  rw [List.length_replicate]; decide
theorem witness_OnlyResetLeavesFaulted : ({ State.reset with run := .faulted } : State).run = .faulted ∧
    (∀ image, Event.start ≠ .reset image) ∧ ([] : List Byte).length ≤ 3584 :=
  ⟨rfl, fun _ h => Event.noConfusion h, by decide⟩
theorem witness_ExecuteStageFaults :
    (executeFault 0 (.call 0) { State.reset with sp := 16 }).isSome = true ∧
    executeFault 0 (.call 0) { State.reset with sp := 15 } = none ∧
    (executeFault 0 (.ldB 0) { State.reset with i := 0xFFE }).isSome = true ∧
    executeFault 0 (.ldB 0) { State.reset with i := 0xFFD } = none ∧
    (executeFault 0 (.ldMemVx 15) { State.reset with i := 0xFF1 }).isSome = true ∧
    executeFault 0 (.ldVxMem 15) { State.reset with i := 0xFF0 } = none ∧
    (executeFault 0 (.drw 0 0 1) { State.reset with i := 0x1000 }).isSome = true ∧
    executeFault 0 (.drw 0 0 1) { State.reset with i := 0xFFF } = none ∧
    executeFault 0 (.drw 0 0 0) { State.reset with i := 0x1000 } = none := by decide
theorem witness_SysRaisesDecodeError : (0x0EF#12) ≠ 0x0E0 ∧ (0x0EF#12) ≠ 0x0EE := by decide
theorem witness_ReturnPopsAddress : ({ State.reset with sp := 16 } : State).sp = (15 : Fin 16).succ ∧
    ({ State.reset with sp := 1 } : State).sp = (0 : Fin 16).succ ∧ State.reset.sp = 0 := by decide
theorem witness_CallPushesReturnAddress : ({ State.reset with sp := 15 } : State).sp = (15 : Fin 16).castSucc ∧
    State.reset.sp = (0 : Fin 16).castSucc ∧ ({ State.reset with sp := 16 } : State).sp = Fin.last 16 := by decide
theorem witness_CallThenReturnComesBack :
    let s := { withBytes { State.reset with pc := 0x0204 } 0xFFE [0x00, 0xEE] with sp := 15 }.withFetchWord 16 0x2FFE
    s.run = .running ∧ s.pc.toNat ≤ 0xFFE ∧ (wordAtPc s).toNat = 0x2000 + (0xFFE#12).toNat ∧ (0xFFE#12).toNat ≤ 0xFFE ∧
    s.mem.read (0xFFE#12).toNat = 0x00 ∧ s.mem.read ((0xFFE#12).toNat + 1) = 0xEE ∧ s.sp.val < 16 := by decide
/-- Both sides of each skip: the condition holds and fails. -/
theorem witness_skips : (withRegs [(1, 9)]).v[1] = 9 ∧ (withRegs [(1, 9)]).v[1] ≠ 8 ∧
    (withRegs [(1, 9)]).v[1] = (withRegs [(1, 9)]).v[1] ∧ (withRegs [(1, 9)]).v[1] ≠ (withRegs [(1, 9)]).v[2] ∧
    ({ State.reset with key := State.reset.key.set 15 true } : State).key[15] = true ∧ State.reset.key[15] = false := by decide
theorem witness_SkipOnKey : (10 : Fin 16).val = ((withRegs [(5, 0x3A)]).v[5]).toNat % 16 := by decide
theorem witness_IndexedJump : (ready 0xBFFF).run = .running ∧ 0xFFE < ((0xFFF#16 : Word)).toNat ∧
    (0xFFF#16).toNat = (0xFFF#12).toNat + (State.reset.v[0]).toNat := by decide
/-- Each effect occurs: a fault, `next`, a skip taken and not, a hold and its end, and a target of each of the four jumps. -/
theorem witness_PcEffects : executeFault (encode (.call 0)) (.call 0) { State.reset with sp := 16 } ≠ none ∧
    executeFault (encode .ret) .ret { State.reset with sp := 16 } = none ∧
    pcEffect .cls State.reset = .next ∧ pcEffect (.seByte 1 9) (withRegs [(1, 9)]) = .skip ∧
    pcEffect (.sneByte 1 9) (withRegs [(1, 9)]) = .next ∧ pcEffect (.seReg 1 2) State.reset = .skip ∧
    pcEffect (.sneReg 1 2) State.reset = .next ∧ pcEffect (.ldVxK 0) State.reset = .hold ∧
    (let s := { withRegs [(5, 0x3A)] with key := State.reset.key.set 10 true }
     pcEffect (.skp 5) s = .skip ∧ pcEffect (.sknp 5) s = .next ∧ pcEffect (.ldVxK 0) s = .next) ∧
    pcEffect (.jp 0xFFF) State.reset = .target 0x0FFF ∧ pcEffect (.call 0x300) State.reset = .target 0x0300 ∧
    pcEffect (.jpV0 0xFFF) (withRegs [(0, 0xFF)]) = .target 0x10FE ∧
    pcEffect .ret { State.reset with sp := 16, stack := State.reset.stack.set 15 0x1000 } = .target 0x1000 := by decide
theorem witness_RegistersChangeOnlyByDestination : (∃ t, exec (.addReg 14 0) State.reset = .next t) ∧
    mayWriteReg (.addReg 14 0) 13 = false := ⟨⟨_, rfl⟩, by decide⟩
theorem witness_BcdStoresDigits : (0x0FFD#16).toNat + 2 ≤ 0xFFF ∧ (0x0FFE#16).toNat + 2 > 0xFFF ∧ 0xFFC < (0x0FFD#16).toNat ∧
    (0x0FFC#16).toNat + 2 < 0xFFF := by decide
theorem witness_BlockStore : (0x0FF0#16).toNat + (15 : Fin 16).val ≤ 0xFFF ∧ (0x0FF1#16).toNat + (15 : Fin 16).val > 0xFFF ∧
    (15 : Fin 16) ≤ 15 ∧ 0xFEF < (0x0FF0#16).toNat ∧ (0x0FEF#16).toNat + (15 : Fin 16).val < 0xFFF := by decide
theorem witness_BlockLoad : (0x0FFF#16).toNat + (0 : Fin 16).val ≤ 0xFFF ∧ (0x1000#16).toNat + (0 : Fin 16).val > 0xFFF := by
  decide
theorem witness_LoadAfterStoreGivesBlock : (0x0FF0#16).toNat + (15 : Fin 16).val ≤ 0xFFF ∧ (15 : Fin 16) ≤ 15 := by decide
/-- Program P7 before its block store. -/
theorem witness_StoreIsSeenByNextFetch :
    let s := { withRegs [(0, 0x12), (1, 0x08)] with pc := 0x0206, i := 0x0208 }.withFetchWord 16 0xF155
    s.run = .running ∧ 1 ≤ (1 : Fin 16).val ∧ (wordAtPc s).toNat = 0xF055 + 256 * (1 : Fin 16).val ∧
    s.pc.toNat + 2 + (1 : Fin 16).val ≤ 0xFFF ∧ s.i.toNat = s.pc.toNat + 2 ∧
    decodeWord (wordOfBytes s.v[0] s.v[1]) = .ok (.jp 0x208) := by decide
theorem witness_TimerTicks : (ready 0x1200).run = .running ∧ State.reset.run ≠ .running := by decide
theorem witness_DelayTimerRisesOnlyByLoad : let s := { withRegs [(0, 9)] with dt := 3 }.withFetchWord 16 0xF015
    ∃ t, step s = .next t ∧ s.dt.toNat < t.dt.toNat := ⟨_, rfl, by decide⟩
theorem witness_SoundTimerIsNeverRead : (∀ x, Instr.cls ≠ .ldStVx x) ∧ ∃ x, Instr.ldStVx 3 = .ldStVx x :=
  ⟨fun _ h => Instr.noConfusion h, 3, rfl⟩
theorem witness_TickCommutesWithInstruction : let s := { ready 0xF315 with dt := 9 }.withFetchWord 16 0xF318
    (∃ t, cpuStep s = .next t ∧ t.run = s.run) ∧
    ∀ x, decodeWord (wordAtPc s) ≠ .ok (.ldVxDt x) ∧ decodeWord (wordAtPc s) ≠ .ok (.ldDtVx x) :=
  ⟨⟨_, rfl, rfl⟩, by decide⟩
theorem witness_KeyWait : let s := { State.reset with key := State.reset.key.set 15 true }
    s.key[15] = true ∧ (∀ j : Fin 16, j < 15 → s.key[j] = false) ∧ ∀ k : Fin 16, State.reset.key[k] = false := by decide
theorem witness_KeyWaitEndsWithKey :
    let s := { ready 0xF30A with dt := 1, schedule := [.cpu, .dtTick, .stTick, .cpu, .setKey 7 true, .cpu, .dtTick] }
    s.run = .running ∧ s.pc.toNat ≤ 0xFFE ∧ decodeWord (wordAtPc s) = .ok (.ldVxK 3) ∧ (∀ j : Fin 16, s.key[j] = false) ∧
    (∀ e ∈ [Event.cpu, .dtTick, .stTick, .cpu], e = .cpu ∨ e = .dtTick ∨ e = .stTick) ∧
    s.schedule = [.cpu, .dtTick, .stTick, .cpu] ++ .setKey 7 true :: .cpu :: [.dtTick] := by decide
theorem witness_DrawTogglesSprite : ((0 : Fin 16).val = 0 ∧ 0x1000 ≤ (0x1000#16).toNat) ∧
    (0x0FF1#16).toNat + (15 : Fin 16).val - 1 ≤ 0xFFF ∧ ((1 : Fin 16).val > 0 ∧ (0x1000#16).toNat + (1 : Fin 16).val - 1 > 0xFFF) ∧
    (0x0FF2#16).toNat + (15 : Fin 16).val - 1 > 0xFFF := by decide
theorem witness_DrawTwiceRestores : let s := { withRegs [(1, 62), (2, 30)] with i := 0x0019 }
    ∃ t, ((5 : Fin 16).val = 0 ∨ s.i.toNat + (5 : Fin 16).val - 1 ≤ 0xFFF) ∧ exec (.drw 1 2 5) s = .next t ∧
      (t.v[1]).toNat % 64 = (s.v[1]).toNat % 64 ∧ (t.v[2]).toNat % 32 = (s.v[2]).toNat % 32 :=
  ⟨_, by decide, rfl, by decide, by decide⟩
theorem witness_RandomByte : State.reset.rndIn = [] := rfl
/-- For each element some instruction that writes it. -/
theorem witness_OnlyListedInstructionsWrite : (after State.reset 0xA123).i ≠ State.reset.i ∧
    (after State.reset 0x2300).sp ≠ State.reset.sp ∧ (after State.reset 0x2300).stack ≠ State.reset.stack ∧
    (after (withRegs [(0, 9)]) 0xF015).dt ≠ State.reset.dt ∧ (after (withRegs [(0, 9)]) 0xF018).st ≠ State.reset.st ∧
    (after State.reset 0xF055).mem ≠ (ready 0xF055).mem ∧ (after State.reset 0xC0FF).draws ≠ State.reset.draws ∧
    (after { State.reset with rndIn := [7] } 0xC0FF).rndIn ≠ [7] ∧ (after State.reset 0x00EE).run ≠ .running := by decide
theorem witness_OnlyListedInstructionsWrite_fb : (after { State.reset with fb := Grid.setPixel Grid.blank 0 0 true } 0x00E0).fb ≠
    Grid.setPixel Grid.blank 0 0 true := by decide +kernel
theorem witness_StartAndStop : State.reset.run = .idle ∧ (ready 0x1200).run = .running ∧ (ready 0x1200).run ≠ .idle ∧
    ({ State.reset with run := .stopped } : State).run = .stopped ∧
    ({ State.reset with run := .faulted } : State).run = .faulted := by decide
theorem witness_ArbiterLosesNoRequest :
    [Event.dtTick, .setKey 3 true, .cpu].Pairwise (fun a b => a.rank ≤ b.rank) ∧
    [Event.dtTick, .setKey 3 true, .cpu] ++ [.stTick] ≠ [] := by decide
theorem witness_ResetLoadsImage : (List.replicate 3584 (0xAA : Byte)).length ≤ 3584 ∧
    3584 < (List.replicate 3585 (0xAA : Byte)).length := by
  rw [List.length_replicate, List.length_replicate]; decide
theorem witness_OversizedImageIsLoadError : 3584 < (List.replicate 3585 (0xAA : Byte)).length := by
  rw [List.length_replicate]; decide
/-- The two ends of each range of zero bytes. -/
theorem witness_ResetStateValues : 0x050 ≤ 0x050 ∧ 0x050 ≤ 0x1FF ∧ 0x1FF ≤ 0x1FF ∧ 0x200 ≤ 0x200 ∧ 0x200 ≤ 0xFFF := by decide
theorem witness_StartedProgramRunsFrom0x200 :
    ({ State.reset with schedule := [.reset [0x12, 0x00], .start, .cpu] } : State).schedule =
      .reset (0x12 :: 0x00 :: []) :: .start :: .cpu :: [] ∧ ([] : List Byte).length + 2 ≤ 3584 ∧
    decodeWord (wordOfBytes 0x12 0x00) = .ok (.jp 0x200) := by decide
theorem witness_StepKeepsInvariant : Inv (ready 0x2300) ∧ ∃ t, step (ready 0x2300) = .next t ∧ t.sp = 1 :=
  ⟨⟨by decide, by decide, by decide, by decide, rfl, by decide⟩, _, rfl, rfl⟩

end Sys2Proof.Tests
end

/-! What an instruction can leave behind, said once (10_state.md R38, 60_exceptions.md R205). -/

namespace Sys2Proof.Machine

/-- Every form the state after an instruction can take, each with the instructions that lead to it and what the instruction
may write there. -/
inductive ExecResult (i : Instr) (s : State) : State → Prop
  /-- fault entry, with the record R202 and R203 give the instruction -/
  | fault (r : FaultRecord) (hr : executeFault (encode i) i s = some r) : ExecResult i s (s.faultEntry r)
  /-- `PC` alone: a jump, a skip, or the hold of a key wait, whose target is `PC` itself -/
  | jump (w : Word) (hw : s.pc.toNat ≤ 0xFFE → w.toNat ≤ 0x10FE) : ExecResult i s (s.setPc w)
  /-- registers the instruction may write -/
  | regs (v : Vector Byte 16) (hv : ∀ r : RegIdx, mayWriteReg i r = false → v[r] = s.v[r]) :
      ExecResult i s ({ s with v := v } : State).next
  /-- the address register -/
  | address (w : Word) (hi : (∃ nnn, i = .ldI nnn) ∨ ∃ x, i = .addI x ∨ i = .ldF x) : ExecResult i s (s.setI w).next
  /-- a return to the popped address -/
  | pop (hi : i = .ret) (h : 0 < s.sp.val) :
      ExecResult i s (({ s with sp := ⟨s.sp.val - 1, by omega⟩ } : State).setPc s.stack[s.sp.val - 1])
  /-- a call, with the address after it pushed -/
  | push (nnn : Addr12) (hi : i = .call nnn) (h : s.sp.val < 16) :
      ExecResult i s (({ s with
        stack := s.stack.set s.sp.val (nextPc s.pc), sp := ⟨s.sp.val + 1, by omega⟩ } : State).setPc (addrOperand nnn))
  /-- the delay timer -/
  | delay (x : RegIdx) (hi : i = .ldDtVx x) : ExecResult i s (s.setDt (s.reg x)).next
  /-- the sound timer -/
  | sound (x : RegIdx) (hi : i = .ldStVx x) : ExecResult i s (s.setSt (s.reg x)).next
  /-- memory, inside its 4096 cells -/
  | memory (m : Memory) (hi : ∃ x, i = .ldB x ∨ i = .ldMemVx x) (hm : s.mem.wf = true → m.wf = true) :
      ExecResult i s (s.setMem m).next
  /-- the framebuffer, and `VF` where a sprite is drawn -/
  | screen (g : Grid) (v : Vector Byte 16) (hi : i = .cls ∨ ∃ x y n, i = .drw x y n)
      (hv : ∀ r : RegIdx, mayWriteReg i r = false → v[r] = s.v[r]) : ExecResult i s ({ s with fb := g, v := v } : State).next
  /-- a draw from the random inputs into a register -/
  | random (l : List Byte) (k : Nat) (v : Vector Byte 16) (hi : ∃ x kk, i = .rnd x kk)
      (hv : ∀ r : RegIdx, mayWriteReg i r = false → v[r] = s.v[r]) :
      ExecResult i s ({ s with rndIn := l, draws := k, v := v } : State).next

/-! ## The ways an instruction reaches its form -/

theorem getElem_set_ne_reg (v : Vector Byte 16) {x r : RegIdx} (b : Byte) (h : r ≠ x) : (v.set x b)[r] = v[r] :=
  Vector.getElem_set_ne x.isLt r.isLt fun e => h (Fin.ext e.symm)

theorem execResult_setReg {i : Instr} (s : State) (x : RegIdx) (b : Byte) (h : ∀ r, mayWriteReg i r = false → r ≠ x) :
    ExecResult i s (s.setReg x b).next :=
  .regs _ fun r hr => getElem_set_ne_reg s.v b (h r hr)

theorem execResult_setRegFlag {i : Instr} (s : State) (x : RegIdx) (b f : Byte)
    (h : ∀ r, mayWriteReg i r = false → r ≠ x ∧ r ≠ vf) : ExecResult i s (s.setRegFlag x b f).next :=
  .regs _ fun r hr =>
    (getElem_set_ne_reg (s.v.set x b) f (h r hr).2).trans (getElem_set_ne_reg s.v b (h r hr).1)

theorem nextPc_le (pc : Word) (h : pc.toNat ≤ 0xFFE) : (nextPc pc).toNat ≤ 0x1000 := by
  rw [nextPc_toNat]; omega

theorem skipPc_le (pc : Word) (h : pc.toNat ≤ 0xFFE) : (skipPc pc).toNat ≤ 0x1002 := by
  rw [skipPc_toNat]; omega

theorem execResult_skipIf (i : Instr) (s : State) (c : Bool) : ExecResult i s (s.skipIf c) := by
  refine .jump _ fun h => ?_
  have hn := nextPc_le s.pc h
  have hs := skipPc_le s.pc h
  split <;> omega

theorem Memory.wf_writeBytes_of_spanOk (bs : List Byte) (m : Memory) (a : Nat) (hm : m.wf = true)
    (h : spanOk a bs.length = true) : (m.writeBytes a bs).wf = true := by
  rcases (spanOk_iff _ _).mp h with hnil | hfit
  · rw [List.eq_nil_of_length_eq_zero hnil]; exact hm
  · exact Memory.wf_writeBytes bs m a hm hfit

/-- An instruction that checks its span of addresses first: it faults as R202's table says where the check fails, and
otherwise ends in the form of its result. -/
theorem execResult_bounded {i : Instr} {s t : State} {n : Nat} {C : Prop} [Decidable C]
    (hexec : exec i s =
      if spanOk s.i.toNat n then .next t else raise .memoryFault (encode i) (lowestBad s.i.toNat) s)
    (hfault : executeFault (encode i) i s =
      if C then some ⟨.memoryFault, encode i, s.pc, lowestBad s.i.toNat⟩ else none)
    (hC : C ↔ s.i.toNat + n > 0x1000 ∧ n ≠ 0) (ht : spanOk s.i.toNat n = true → ExecResult i s t) :
    ∃ t, exec i s = .next t ∧ ExecResult i s t := by
  by_cases hb : spanOk s.i.toNat n = true
  · exact ⟨t, hexec.trans (if_pos hb), ht hb⟩
  · refine ⟨_, hexec.trans (if_neg hb), .fault _ (hfault.trans (if_pos (hC.mpr ?_)))⟩
    rw [spanOk_iff] at hb; omega

theorem execResult_ret (s : State) : ∃ t, exec .ret s = .next t ∧ ExecResult .ret s t := by
  by_cases h : s.sp.val = 0
  · exact ⟨_, by simp only [exec, execRet, s.pop_empty h]; rfl, .fault _ (if_pos h)⟩
  · have hpos := Nat.pos_of_ne_zero h
    exact ⟨_, by simp only [exec, execRet, s.pop_eq hpos], .pop rfl hpos⟩

theorem execResult_call (nnn : Addr12) (s : State) : ∃ t, exec (.call nnn) s = .next t ∧ ExecResult (.call nnn) s t := by
  by_cases h : s.sp.val = 16
  · exact ⟨_, by simp only [exec, execCall, s.push_full _ h]; rfl, .fault _ (if_pos h)⟩
  · have hlt : s.sp.val < 16 := by omega
    exact ⟨_, by simp only [exec, execCall, s.push_eq _ hlt], .push nnn rfl hlt⟩

theorem execResult_ldVxK (x : RegIdx) (s : State) : ∃ t, exec (.ldVxK x) s = .next t ∧ ExecResult (.ldVxK x) s t := by
  cases hk : s.lowestKey with
  | none => exact ⟨s, by simp only [exec, execLdVxK, hk], .jump s.pc fun h => by omega⟩
  | some k =>
    refine ⟨(s.setReg x (BitVec.ofNat 8 k.val)).next, ?_, execResult_setReg s x _ (by simp [mayWriteReg])⟩
    simp only [exec, execLdVxK, hk]

theorem execResult_rnd (x : RegIdx) (kk : Byte) (s : State) : ExecResult (.rnd x kk) s
    (s.drawn.setReg x (rndResult s.cfg.rndMasked s.draw kk)).next := by
  obtain ⟨l, k, hd⟩ := s.drawn_eq
  rw [hd]
  exact .random l k _ ⟨x, kk, rfl⟩ fun r hr => getElem_set_ne_reg s.v _ (by simpa [mayWriteReg] using hr)

/-- What every instruction can do: it answers a state of one of the forms. -/
theorem exec_result (i : Instr) (s : State) : ∃ t, exec i s = .next t ∧ ExecResult i s t := by
  cases i with
  | sys nnn => exact ⟨_, rfl, .fault _ rfl⟩
  | cls => exact ⟨_, rfl, .screen _ s.v (.inl rfl) fun _ _ => rfl⟩
  | ret => exact execResult_ret s
  | jp nnn => exact ⟨_, rfl, .jump _ fun _ => by rw [addrOperand_toNat]; omega⟩
  | call nnn => exact execResult_call nnn s
  | seByte | sneByte | seReg | sneReg | skp | sknp => exact ⟨_, rfl, execResult_skipIf _ s _⟩
  | ldByte x | addByte x | ldReg x | orReg x | andReg x | xorReg x | ldVxDt x =>
    exact ⟨_, rfl, execResult_setReg s x _ (by simp [mayWriteReg])⟩
  | addReg x | sub x | shr x | subn x | shl x =>
    exact ⟨_, rfl, execResult_setRegFlag s x _ _ (by simp [mayWriteReg, vf])⟩
  | ldI nnn => exact ⟨_, rfl, .address _ (.inl ⟨nnn, rfl⟩)⟩
  | addI x => exact ⟨_, rfl, .address _ (.inr ⟨x, .inl rfl⟩)⟩
  | ldF x => exact ⟨_, rfl, .address _ (.inr ⟨x, .inr rfl⟩)⟩
  | jpV0 nnn =>
    refine ⟨_, rfl, .jump _ fun _ => ?_⟩
    have hn := nnn.isLt
    have hv := (s.reg 0).isLt
    rw [BitVec.toNat_add, addrOperand_toNat, byteOffset_toNat]; omega
  | rnd x kk => exact ⟨_, rfl, execResult_rnd x kk s⟩
  | drw x y n =>
    refine execResult_bounded rfl rfl (by omega) fun _ => .screen _ _ (.inr ⟨x, y, n, rfl⟩) fun r hr => ?_
    exact getElem_set_ne_reg s.v _ (by simpa [mayWriteReg, vf] using hr)
  | ldVxK x => exact execResult_ldVxK x s
  | ldDtVx x => exact ⟨_, rfl, .delay x rfl⟩
  | ldStVx x => exact ⟨_, rfl, .sound x rfl⟩
  | ldB x =>
    exact execResult_bounded rfl rfl (by omega) fun hb => .memory _ ⟨x, .inl rfl⟩ fun hm =>
      Memory.wf_writeBytes_of_spanOk _ _ _ hm hb
  | ldMemVx x =>
    refine execResult_bounded rfl rfl (by omega) fun hb => .memory _ ⟨x, .inr rfl⟩ fun hm => ?_
    exact Memory.wf_writeBytes_of_spanOk _ _ _ hm (by rwa [regBlock_length])
  | ldVxMem x =>
    refine execResult_bounded rfl rfl (by omega) fun _ => .regs _ fun r hr => ?_
    have hx : ¬r ≤ x := by simpa [mayWriteReg] using hr
    exact (loadRegBlock_getElem ..).trans (if_neg hx)

theorem execResult_of_exec {i : Instr} {s t : State} (h : exec i s = .next t) : ExecResult i s t := by
  obtain ⟨u, hu, hr⟩ := exec_result i s
  rw [h] at hu
  cases hu; exact hr

/-! ## One step -/

/-- A step delivers the head of the schedule, or a grant to the `CPU`, to the state with the rest of the schedule. -/
theorem step_eq_deliver (s : State) :
    step s = deliver (s.schedule.head?.getD .cpu) { s with schedule := s.schedule.tail } := by
  cases h : s.schedule with
  | nil =>
    have hs : ({ s with schedule := [] } : State) = s := by rw [← h]
    simp only [step_nil s h, List.head?_nil, Option.getD_none, List.tail_nil, hs, deliver]
  | cons e rest => exact step_cons s e rest h

end Sys2Proof.Machine

/-! The invariant of the machine, kept by every operation of every agent (10_state.md R24, R29, R33, R37). -/

namespace Sys2Proof.Machine

/-- A machine that is not faulted holds the clear fault record. -/
theorem fault_eq_clear_of_inv {s : State} (h : Inv s) (hr : s.run ≠ .faulted) : s.fault = FaultRecord.clear := by
  obtain ⟨-, -, -, hkind, hfits, -⟩ := h
  simpa only [FaultRecord.fits, hkind.mpr hr] using hfits

/-- Without a fault, the invariant speaks of memory, `PC` and the stack alone. -/
theorem inv_of_fault_eq_clear {s : State} (hf : s.fault = FaultRecord.clear) (hr : s.run ≠ .faulted)
    (hmem : s.mem.wf = true) (hpc : s.pc.toNat ≤ 0x10FE) (hstack : stackOk s) : Inv s := by
  refine ⟨hmem, hpc, hstack, ?_, ?_, fun h => absurd h hr⟩
  · exact iff_of_true (by rw [hf]; rfl) hr
  · rw [hf]; rfl

/-- Fault entry keeps the invariant, whichever record it writes, if the record fits its kind and names `PC` (R203, R205). -/
theorem inv_faultEntry {s : State} {r : FaultRecord} (h : Inv s) (hkind : r.kind ≠ .none) (hfits : r.fits)
    (hpc : r.pc = s.pc) : Inv (s.faultEntry r) := by
  obtain ⟨hmem, hle, hstack, -, -, -⟩ := h
  exact ⟨hmem, hle, hstack, iff_of_false hkind fun hne => hne rfl, hfits, fun _ => hpc⟩

theorem lowestBad_ge (w : Word) : 0x1000 ≤ (lowestBad w.toNat).toNat := by
  rw [lowestBad_toNat]; exact Nat.le_max_right ..

/-- The record of an execute-stage fault names a kind, fits it, and holds `PC` (R202, R203). -/
theorem executeFault_fits {i : Instr} {s : State} {r : FaultRecord} (h : executeFault (encode i) i s = some r) :
    r.kind ≠ .none ∧ r.fits ∧ r.pc = s.pc := by
  cases i <;> simp only [executeFault, Option.ite_none_right_eq_some, Option.some.injEq, reduceCtorEq] at h
  case sys => subst h; exact ⟨nofun, rfl, rfl⟩
  case ret => obtain ⟨-, rfl⟩ := h; exact ⟨nofun, ⟨rfl, rfl⟩, rfl⟩
  case call => obtain ⟨-, rfl⟩ := h; exact ⟨nofun, ⟨rfl, fieldN0_wordNnn ..⟩, rfl⟩
  case drw | ldB | ldMemVx | ldVxMem =>
    obtain ⟨-, rfl⟩ := h
    exact ⟨nofun, lowestBad_ge s.i, rfl⟩

theorem fetch_error_ge {s : State} {a : Addr17} (h : fetch s = .error a) : 0x1000 ≤ a.toNat := by
  by_cases hb : s.pc.toNat ≤ 0xFFE
  · rw [fetch_ok s hb] at h; cases h
  · obtain ⟨b, hf, hge⟩ := fetch_error s (by omega)
    cases hf.symm.trans h
    omega

/-- Every entry in use stays a return address after the push of one. -/
theorem stackOk_push {s : State} (h : stackOk s) (hlt : s.sp.val < 16) {w : Word} (hw : w.toNat ≤ 0x1000) :
    stackOk { s with stack := s.stack.set s.sp.val w, sp := ⟨s.sp.val + 1, by omega⟩ } := by
  intro k hk
  by_cases he : k.val = s.sp.val
  · simpa [he] using hw
  · have hold := h k (by simp only at hk; omega)
    simpa [Vector.getElem_set_ne _ _ (Ne.symm he)] using hold

/-- Every form an instruction's result takes keeps the invariant, where both its bytes were fetched. -/
theorem inv_of_execResult {i : Instr} {s t : State} (r : ExecResult i s t) (h : Inv s) (hrun : s.run ≠ .faulted)
    (hb : s.pc.toNat ≤ 0xFFE) : Inv t := by
  have hclear := fault_eq_clear_of_inv h hrun
  have hnext := (nextPc_le s.pc hb).trans (by decide : 0x1000 ≤ 0x10FE)
  have ⟨hmem, _, hstack, _⟩ := h
  cases r with
  | fault r hr =>
    obtain ⟨hkind, hfits, hpc⟩ := executeFault_fits hr
    exact inv_faultEntry h hkind hfits hpc
  | jump w hw => exact inv_of_fault_eq_clear hclear hrun hmem (hw hb) hstack
  | pop _ hpos =>
    have htop := hstack ⟨s.sp.val - 1, by omega⟩ (by simp only; omega)
    exact inv_of_fault_eq_clear hclear hrun hmem (Nat.le_trans htop (by decide)) fun k hk =>
      hstack k (Nat.lt_of_lt_of_le hk (Nat.sub_le ..))
  | push nnn _ hlt =>
    have hnnn : (addrOperand nnn).toNat ≤ 0x10FE := by rw [addrOperand_toNat]; omega
    exact inv_of_fault_eq_clear hclear hrun hmem hnnn (stackOk_push hstack hlt (nextPc_le s.pc hb))
  | memory m _ hm => exact inv_of_fault_eq_clear hclear hrun (hm hmem) hnext hstack
  | regs | address | delay | sound | screen | random =>
    exact inv_of_fault_eq_clear hclear hrun hmem hnext hstack

/-- A grant to the `CPU` keeps the invariant: a frozen core stays, a fetch or decode fault writes its record, and an
instruction keeps it. -/
theorem inv_cpuStep {s t : State} (h : Inv s) (ht : cpuStep s = .next t) : Inv t := by
  by_cases hrun : s.run = .running
  · rw [cpuStep_running s hrun] at ht
    rcases cpuCycle_cases s with ⟨a, ha, e⟩ | ⟨op, r, -, -, e⟩ | ⟨op, i, hop, -, e⟩
    · cases e.symm.trans ht
      exact inv_faultEntry h nofun (fetch_error_ge ha) rfl
    · cases e.symm.trans ht
      exact inv_faultEntry h nofun rfl rfl
    · have hr := execResult_of_exec (e.symm.trans ht)
      exact inv_of_execResult hr h (by simp [hrun]) (fetch_ok_bound s op hop).1
  · rw [cpuStep_frozen s hrun] at ht
    cases ht; exact h

theorem inv_resetWith (image : List Byte) (s : State) (h : image.length ≤ 3584) : Inv (resetWith image s) :=
  inv_of_fault_eq_clear rfl nofun (wf_resetMemory s.cfg.font image h) (by decide : 0x200 ≤ 0x10FE) nofun

theorem inv_hostReset (image : List Byte) (s : State) : Inv (hostReset image s) := by
  by_cases h : image.length ≤ 3584
  · rw [hostReset_fits image s h]; exact inv_resetWith image s h
  · rw [hostReset_tooLong image s (by omega)]
    exact inv_faultEntry (inv_resetWith [] s (by decide)) nofun rfl rfl

/-- Moving between the run states that are not `FAULTED` keeps the invariant. -/
theorem inv_setRun {s : State} (h : Inv s) (hrun : s.run ≠ .faulted) {q : RunState} (hq : q ≠ .faulted) (b : Bool) :
    Inv { s with run := q, cmdError := b } := by
  have hclear := fault_eq_clear_of_inv h hrun
  obtain ⟨hmem, hpc, hstack, -, -, -⟩ := h
  exact inv_of_fault_eq_clear hclear hq hmem hpc hstack

theorem inv_hostStart {s : State} (h : Inv s) : Inv (hostStart s) := by
  by_cases hrun : s.run = .idle
  · rw [hostStart_idle s hrun]; exact inv_setRun h (by simp [hrun]) (by decide) false
  · rw [hostStart_refused s hrun]; exact h

theorem inv_hostStop {s : State} (h : Inv s) : Inv (hostStop s) := by
  cases hrun : s.run with
  | running => rw [hostStop_running s hrun]; exact inv_setRun h (by simp [hrun]) (by decide) false
  | idle => rw [hostStop_idle s hrun]; exact h
  | stopped => rw [hostStop_ended s (.inl hrun)]; exact h
  | faulted => rw [hostStop_ended s (.inr hrun)]; exact h

theorem inv_dtTick {s : State} (h : Inv s) : Inv (dtTick s) := by
  by_cases hrun : s.run = .running
  · rw [dtTick_running s hrun]; exact h
  · rw [dtTick_frozen s hrun]; exact h

theorem inv_stTick {s : State} (h : Inv s) : Inv (stTick s) := by
  by_cases hrun : s.run = .running
  · rw [stTick_running s hrun]; exact h
  · rw [stTick_frozen s hrun]; exact h

theorem inv_deliver {e : Event} {s t : State} (h : Inv s) (ht : deliver e s = .next t) : Inv t := by
  cases e with
  | cpu => exact inv_cpuStep h ht
  | dtTick => cases ht; exact inv_dtTick h
  | stTick => cases ht; exact inv_stTick h
  | start => cases ht; exact inv_hostStart h
  | stop => cases ht; exact inv_hostStop h
  | setKey | snapshot => cases ht; exact h
  | reset image => cases ht; exact inv_hostReset image s

/-- Settles O58: the step delivers one event, and every agent's operation keeps the invariant. -/
theorem stepKeepsInvariant : Obligations.StepKeepsInvariant := by
  intro s t h ht
  rw [step_eq_deliver] at ht
  exact inv_deliver (s := { s with schedule := s.schedule.tail }) h ht

end Sys2Proof.Machine

/-! Who writes which element, and who reads the sound timer (10_state.md R27, R28, R38). -/

namespace Sys2Proof.Machine

/-! ## Who writes what (10_state.md R38) -/

theorem reg_of_execResult {i : Instr} {s t : State} (h : ExecResult i s t) {q : RegIdx} (hq : mayWriteReg i q = false) :
    t.v[q] = s.v[q] := by
  cases h with
  | regs v hv | screen g v _ hv | random l k v _ hv => exact hv q hq
  | fault | jump | address | pop | push | delay | sound | memory => rfl

/-- Settles O30: each form of an instruction's result keeps the registers the instruction may not write. -/
theorem registersChangeOnlyByDestination : Obligations.RegistersChangeOnlyByDestination :=
  fun _ _ _ _ h hq => reg_of_execResult (execResult_of_exec h) hq

/-- Settles O49: each form of an instruction's result changes its own elements alone, and names its instructions. -/
theorem onlyListedInstructionsWrite : Obligations.OnlyListedInstructionsWrite := by
  intro i s t h
  cases execResult_of_exec h with
  | fault r hr => simp [hr]
  | jump | regs => simp
  | address w hi => simpa using fun _ => hi
  | pop hi => simp [hi]
  | push nnn hi => simp [hi]
  | delay x hi => simp [hi]
  | sound x hi => simp [hi]
  | memory m hi => simpa using fun _ => hi
  | screen g v hi => simpa using fun _ => hi
  | random l k v hi => simpa using fun _ => hi

/-! ## The delay timer (10_state.md R27) -/

theorem dt_of_execResult {i : Instr} {s t : State} (h : ExecResult i s t) :
    t.dt = s.dt ∨ ∃ x, i = .ldDtVx x ∧ t.dt = s.v[x] := by
  cases h with
  | delay x hi => exact .inr ⟨x, hi, rfl⟩
  | fault | jump | regs | address | pop | push | sound | memory | screen | random => exact .inl rfl

/-- A grant to the `CPU` keeps `DT`, unless the core runs and the word at `PC` is `LD DT, Vx`. -/
theorem dt_of_cpuStep {s t : State} (h : cpuStep s = .next t) :
    t.dt = s.dt ∨ s.run = .running ∧ s.pc.toNat ≤ 0xFFE ∧
      ∃ x, decodeWord (wordAtPc s) = .ok (.ldDtVx x) ∧ t.dt = s.v[x] := by
  by_cases hrun : s.run = .running
  · rw [cpuStep_running s hrun] at h
    rcases cpuCycle_cases s with ⟨a, -, e⟩ | ⟨op, r, -, -, e⟩ | ⟨op, i, hop, hdec, e⟩
    · cases e.symm.trans h; exact .inl rfl
    · cases e.symm.trans h; exact .inl rfl
    · obtain ⟨hpc, rfl⟩ := fetch_ok_bound s op hop
      refine (dt_of_execResult (execResult_of_exec (e.symm.trans h))).imp_right ?_
      rintro ⟨x, rfl, hx⟩
      exact ⟨hrun, hpc, x, hdec, hx⟩
  · rw [cpuStep_frozen s hrun] at h
    cases h; exact .inl rfl

theorem dt_dtTick_le (s : State) : (dtTick s).dt.toNat ≤ s.dt.toNat := by
  by_cases hrun : s.run = .running
  · rw [dtTick_running s hrun, State.setDt_dt, countDown_toNat]; exact Nat.sub_le ..
  · rw [dtTick_frozen s hrun]

theorem dt_stTick (s : State) : (stTick s).dt = s.dt := by unfold stTick; split <;> rfl

theorem dt_hostStart (s : State) : (hostStart s).dt = s.dt := by unfold hostStart; split <;> rfl

theorem dt_hostStop (s : State) : (hostStop s).dt = s.dt := by unfold hostStop; split <;> rfl

theorem dt_hostReset (image : List Byte) (s : State) : (hostReset image s).dt = 0 := by unfold hostReset; split <;> rfl

/-- No event but a grant to the `CPU` raises `DT`. -/
theorem dt_deliver_le {e : Event} {s t : State} (he : e ≠ .cpu) (h : deliver e s = .next t) :
    t.dt.toNat ≤ s.dt.toNat := by
  cases e with
  | cpu => exact absurd rfl he
  | dtTick => cases h; exact dt_dtTick_le s
  | stTick => cases h; exact (congrArg _ (dt_stTick s)).le
  | start => cases h; exact (congrArg _ (dt_hostStart s)).le
  | stop => cases h; exact (congrArg _ (dt_hostStop s)).le
  | setKey | snapshot => cases h; exact Nat.le_refl _
  | reset image => cases h; rw [dt_hostReset]; exact Nat.zero_le _

/-- Settles O39: no other event raises `DT`, and a grant to the `CPU` changes it only by `LD DT, Vx`. -/
theorem delayTimerRisesOnlyByLoad : Obligations.DelayTimerRisesOnlyByLoad := by
  intro s t h hlt
  rw [step_eq_deliver] at h
  have hcpu : s.schedule.head?.getD .cpu = .cpu := by
    by_contra he
    exact absurd (dt_deliver_le he h) (Nat.not_le.mpr hlt)
  rw [hcpu] at h
  rcases dt_of_cpuStep h with hdt | ⟨hrun, hpc, hload⟩
  · exact absurd hlt (by rw [hdt]; exact Nat.lt_irrefl _)
  · exact ⟨hrun, hcpu, hpc, hload⟩

/-! ## The sound timer (10_state.md R28) -/

theorem st_of_execResult {i : Instr} {s t : State} (h : ExecResult i s t) (hi : ∀ x, i ≠ .ldStVx x) : t.st = s.st := by
  cases h with
  | sound x hx => exact absurd hx (hi x)
  | fault | jump | regs | address | pop | push | delay | memory | screen | random => rfl

section setSt

variable (s : State) (b : Byte)

@[simp] theorem State.push_setSt (w : Word) : (s.setSt b).push w = (s.push w).map (·.setSt b) := by
  by_cases h : s.sp.val < 16
  · rw [s.push_eq w h, (s.setSt b).push_eq w h]; rfl
  · have hfull : s.sp.val = 16 := by omega
    rw [s.push_full w hfull, (s.setSt b).push_full w hfull]; rfl

@[simp] theorem State.pop_setSt : (s.setSt b).pop = s.pop.map (fun p => (p.1, p.2.setSt b)) := by
  by_cases h : s.sp.val = 0
  · rw [s.pop_empty h, (s.setSt b).pop_empty h]; rfl
  · rw [s.pop_eq (Nat.pos_of_ne_zero h), (s.setSt b).pop_eq (Nat.pos_of_ne_zero h)]; rfl

@[simp] theorem State.draw_setSt : (s.setSt b).draw = s.draw := rfl

@[simp] theorem State.drawn_setSt : (s.setSt b).drawn = s.drawn.setSt b := by
  unfold State.drawn; simp only [State.setSt_rndIn]; split <;> rfl

@[simp] theorem State.lowestKey_setSt : (s.setSt b).lowestKey = s.lowestKey := rfl

/-- The form of an instruction that checks its span of addresses first carries another `ST` through both branches. -/
theorem bounded_setSt {c : Bool} {t f u : State} (h : (if c then (.next t : Result) else .next f) = .next u) :
    (if c then (.next (t.setSt b) : Result) else .next (f.setSt b)) = .next (u.setSt b) := by
  cases c <;> cases h <;> rfl

/-- An instruction that is not `LD ST, Vx` neither reads nor writes `ST`: another value of it is carried through. -/
theorem exec_setSt {i : Instr} {s t : State} (hi : ∀ x, i ≠ .ldStVx x) (h : exec i s = .next t) :
    exec i (s.setSt b) = .next (t.setSt b) := by
  cases i with
  | ldStVx x => exact absurd rfl (hi x)
  | ret =>
    simp only [exec, execRet, State.pop_setSt] at h ⊢
    cases hp : s.pop <;> rw [hp] at h <;> cases h <;> rfl
  | call nnn =>
    simp only [exec, execCall, State.setSt_pc, State.push_setSt] at h ⊢
    cases hp : s.push (nextPc s.pc) <;> rw [hp] at h <;> cases h <;> rfl
  | ldVxK x =>
    simp only [exec, execLdVxK, State.lowestKey_setSt] at h ⊢
    cases hk : s.lowestKey <;> rw [hk] at h <;> cases h <;> rfl
  | rnd x kk =>
    simp only [exec, execRnd, State.draw_setSt, State.drawn_setSt] at h ⊢
    cases h; rfl
  | drw | ldB | ldMemVx | ldVxMem => exact bounded_setSt b h
  | sys | cls | jp | seByte | sneByte | seReg | sneReg | ldByte | addByte | ldReg | orReg | andReg | xorReg | addReg
  | sub | shr | subn | shl | ldI | jpV0 | skp | sknp | ldVxDt | ldDtVx | addI | ldF => cases h; rfl

end setSt

/-- Settles O40: every instruction but `LD ST, Vx` carries `ST` through, and that one overwrites it. -/
theorem soundTimerIsNeverRead : Obligations.SoundTimerIsNeverRead := by
  intro i s b
  obtain ⟨t, ht, hr⟩ := exec_result i s
  refine ⟨t, ht, fun hi => ⟨st_of_execResult hr hi, exec_setSt b hi ht⟩, ?_⟩
  rintro ⟨x, rfl⟩
  cases ht; rfl

end Sys2Proof.Machine

/-! The reset state: its values and the invariant (10_state.md R36, R37). -/

namespace Sys2Proof.Machine

/-- Settles O57: the clear fault record, an empty stack, `PC` at 0x200, and no listed memory cell. -/
theorem resetMeetsInvariant : Obligations.ResetMeetsInvariant :=
  inv_of_fault_eq_clear rfl nofun rfl (by decide : 0x200 ≤ 0x10FE) nofun

theorem unlisted_font (k : Fin 80) : unlisted k.val = defaultFont[k] := dif_pos k.isLt

theorem unlisted_zero {a : Nat} (h : 80 ≤ a) : unlisted a = 0 := dif_neg (Nat.not_lt.mpr h)

/-- Storing in the empty memory what its addresses read as lists nothing. -/
theorem writeBytes_unlisted (bs : List Byte) (a : Nat) (h : ∀ (k : Nat) (hk : k < bs.length), bs[k] = unlisted (a + k)) :
    Memory.writeBytes [] a bs = [] := by
  induction bs generalizing a with
  | nil => rfl
  | cons b bs ih =>
    have hb : b = unlisted a := h 0 (Nat.zero_lt_succ _)
    have hw : Memory.write [] a b = [] := if_pos hb
    rw [Memory.writeBytes, hw]
    refine ih (a + 1) fun k hk => ?_
    have := h (k + 1) (Nat.succ_lt_succ hk)
    rwa [List.getElem_cons_succ, Nat.add_comm k 1, ← Nat.add_assoc] at this

theorem resetMemory_default : resetMemory defaultFont [] = [] := by
  have hfont : Memory.writeBytes [] fontBase defaultFont.toList = [] := by
    refine writeBytes_unlisted _ _ fun k hk => ?_
    rw [Vector.getElem_toList, fontBase, Nat.zero_add]
    exact (unlisted_font ⟨k, by simpa using hk⟩).symm
  rw [resetMemory, hfont]; rfl

theorem hostReset_reset : hostReset [] State.reset = State.reset := by
  rw [hostReset_fits [] _ (by decide), resetWith]
  exact congrArg (fun m => { State.reset with mem := m }) resetMemory_default

/-- Settles O55: the fields of `State.reset` are the table's by definition; what is not listed in memory reads as the
font, then as zero; and storing the default font lists nothing. -/
theorem resetStateValues : Obligations.ResetStateValues := by
  have hv : ∀ r : RegIdx, State.reset.v[r] = 0 := fun r => Vector.getElem_replicate r.isLt
  have hstack : ∀ k : Fin 16, State.reset.stack[k] = 0 ∧ State.reset.key[k] = false := fun k =>
    ⟨Vector.getElem_replicate k.isLt, Vector.getElem_replicate k.isLt⟩
  refine ⟨rfl, rfl, rfl, rfl, rfl, hv, hstack, Grid.pixel_blank, rfl, rfl, unlisted_font, by decide, by decide,
    fun a ha _ => unlisted_zero ha, fun a ha => unlisted_zero (by omega), rfl, rfl, rfl, rfl, rfl, rfl, ?_⟩
  exact congrArg Host.Outcome.next hostReset_reset

end Sys2Proof.Machine

/-! What memory reads as after a store, and how a word in memory comes to run (20_memory.md R53, R59, R63). -/

namespace Sys2Proof.Machine

theorem Memory.read_writeBytes_add (m : Memory) (a k : Nat) (bs : List Byte) (hk : k < bs.length) :
    (m.writeBytes a bs).read (a + k) = bs[k] := by
  have hin : a ≤ a + k ∧ a + k < a + bs.length := by omega
  simp only [Memory.read_writeBytes, dif_pos hin, Nat.add_sub_cancel_left]

/-- The block store puts `V[k]` at its base plus `k` (42_memory_address.md R135). -/
theorem Memory.read_writeBytes_regBlock (m : Memory) (a : Nat) (v : Vector Byte 16) {x k : RegIdx} (hk : k ≤ x) :
    (m.writeBytes a (regBlock v x)).read (a + k.val) = v[k] := by
  have hlt : k.val < (regBlock v x).length := by rw [regBlock_length]; exact Nat.lt_succ_of_le hk
  exact (Memory.read_writeBytes_add m a k (regBlock v x) hlt).trans (regBlock_getElem v x k hlt)

/-- A block whose last address exists passes the bound check (42_memory_address.md R130). -/
theorem spanOk_block {a : Nat} {x : RegIdx} (h : a + x.val ≤ 0xFFF) : spanOk a (x.val + 1) = true :=
  (spanOk_iff _ _).mpr (.inr (by omega))

theorem exec_ldMemVx {x : RegIdx} {s : State} (h : s.i.toNat + x.val ≤ 0xFFF) :
    exec (.ldMemVx x) s = .next (s.setMem (s.mem.writeBytes s.i.toNat (regBlock s.v x))).next :=
  if_pos (spanOk_block h)

theorem exec_ldVxMem {x : RegIdx} {s : State} (h : s.i.toNat + x.val ≤ 0xFFF) :
    exec (.ldVxMem x) s = .next ({ s with v := loadRegBlock s.v s.mem s.i.toNat x } : State).next :=
  if_pos (spanOk_block h)

/-- Settles O35: neither transfer moves `I`, so the load reads where the store wrote. -/
theorem loadAfterStoreGivesBlock : Obligations.LoadAfterStoreGivesBlock := by
  intro x z s w hfit hz
  have hzfit : s.i.toNat + z.val ≤ 0xFFF := (Nat.add_le_add_left hz _).trans hfit
  refine ⟨_, _, exec_ldMemVx hfit, exec_ldVxMem hzfit, fun r => (loadRegBlock_getElem ..).trans ?_⟩
  by_cases hr : r ≤ z
  · rw [if_pos hr, if_pos hr]
    exact Memory.read_writeBytes_regBlock s.mem s.i.toNat s.v (hr.trans hz)
  · rw [if_neg hr, if_neg hr]; rfl

/-! ## The word at `PC` -/

/-- A running core executes the instruction of the word at `PC` (47_agents_and_arbiter.md R181). -/
theorem cpuStep_eq_exec {s : State} {i : Instr} (hrun : s.run = .running) (hpc : s.pc.toNat ≤ 0xFFE)
    (hdec : decodeWord (wordAtPc s) = .ok i) : cpuStep s = exec i s :=
  (cpuStep_running s hrun).trans (cpuCycle_legal s _ i (fetch_ok s hpc) hdec)

/-- A word placed at `PC` is the word at `PC`: its high byte lies at the lower address (20_memory.md R53). -/
theorem wordAtPc_readyToRun {s : State} (op : Word) (hpc : s.pc.toNat ≤ 0xFFE) : wordAtPc (readyToRun s op) = op := by
  have hfit : s.pc.toNat + 2 ≤ memSize := Nat.add_le_add_right hpc 2
  have hmem : (readyToRun s op).mem = s.mem.writeBytes s.pc.toNat [highByte op, lowByte op] := if_pos hfit
  have hhi := Memory.read_writeBytes_add s.mem s.pc.toNat 0 [highByte op, lowByte op] Nat.zero_lt_two
  have hlo := Memory.read_writeBytes_add s.mem s.pc.toNat 1 [highByte op, lowByte op] Nat.one_lt_two
  calc wordAtPc (readyToRun s op)
      = wordOfBytes (highByte op) (lowByte op) := by rw [wordAtPc, hmem]; exact congrArg₂ wordOfBytes hhi hlo
    _ = op := wordOfBytes_bytes op

theorem withFetchWord_toNat (s : State) (op : Word) : s.withFetchWord 16 op.toNat = readyToRun s op := by
  rw [State.withFetchWord, Nat.mod_eq_of_lt op.isLt, BitVec.ofNat_toNat, BitVec.setWidth_eq]

/-- Settles O12: the state is running, its schedule is empty, and the word at its `PC` is the placed one. -/
theorem placedWordRunsNext : Obligations.PlacedWordRunsNext := by
  intro s w i hpc hdec
  rw [withFetchWord_toNat, step_nil _ rfl]
  exact cpuStep_eq_exec rfl hpc (by rwa [wordAtPc_readyToRun w hpc])

/-! ## Self-modifying code (20_memory.md R63) -/

/-- `Fx55` decodes to `LD [I], Vx` (30_encoding.md R79). -/
theorem decodeWord_ldMemVx {op : Word} {x : RegIdx} (h : op.toNat = 0xF055 + 256 * x.val) :
    decodeWord op = .ok (.ldMemVx x) := by
  have hop : op = wordXkk 0xF x 0x55 := BitVec.eq_of_toNat_eq <| calc
    op.toNat = 0xF * 4096 + x.val * 256 + 0x55 := by omega
    _ = (wordXkk 0xF x 0x55).toNat := (wordXkk_toNat 0xF x 0x55).symm
  simp [hop, decodeWord, decodeGroupF]

/-- Settles O36: the block starts at the next `PC`, so the next fetch reads `V[0]` and `V[1]` as they were stored. -/
theorem storeIsSeenByNextFetch : Obligations.StoreIsSeenByNextFetch := by
  intro s x i hrun hx hword hfit hi hdec
  have hstore : cpuStep s = .next (s.setMem (s.mem.writeBytes s.i.toNat (regBlock s.v x))).next :=
    (cpuStep_eq_exec hrun (by omega) (decodeWord_ldMemVx hword)).trans (exec_ldMemVx (by omega))
  have hpc : (nextPc s.pc).toNat = s.i.toNat := by rw [nextPc_toNat]; omega
  have hseen : wordAtPc (s.setMem (s.mem.writeBytes s.i.toNat (regBlock s.v x))).next = wordOfBytes s.v[0] s.v[1] := by
    have h0 := Memory.read_writeBytes_regBlock s.mem s.i.toNat s.v (Fin.zero_le x)
    have h1 := Memory.read_writeBytes_regBlock s.mem s.i.toNat s.v (show (1 : RegIdx) ≤ x from hx)
    rw [wordAtPc, State.next_pc, State.setMem_pc, hpc]
    exact congrArg₂ wordOfBytes h0 h1
  have hle : (nextPc s.pc).toNat ≤ 0xFFE := by omega
  exact ⟨_, hstore, rfl, hseen, cpuStep_eq_exec hrun hle (by rwa [hseen])⟩

end Sys2Proof.Machine

/-! The decoder and the encoder: the two round trips, and the table of masks and matches (30_encoding.md R70 to R80). -/

namespace Sys2Proof

/-! ## From an instruction to its word and back -/

/-- `0nnn` is `SYS` where it is neither `CLS` nor `RET` (30_encoding.md R75). -/
theorem decodeWord_sys {nnn : Addr12} (h : sysAddrOk nnn = true) : decodeWord (wordNnn 0x0 nnn) = .ok (.sys nnn) := by
  obtain ⟨hcls, hret⟩ : nnn ≠ 0x0E0#12 ∧ nnn ≠ 0x0EE#12 := by simpa [sysAddrOk] using h
  simp [decodeWord, decodeGroup0, hcls, hret]

/-- Settles O1: the decoder finds in the encoded word the group, the sub-opcode and the operands the encoder put there. -/
theorem decodeEncodeRoundTrip : Obligations.DecodeEncodeRoundTrip := by
  intro i hi
  cases i with
  | sys => exact decodeWord_sys hi
  | cls | ret => rfl
  | jp | call | ldI | jpV0 => simp [encode, decodeWord]
  | seByte | sneByte | ldByte | addByte | rnd => simp [encode, decodeWord]
  | seReg | sneReg | drw => simp [encode, decodeWord]
  | ldReg | orReg | andReg | xorReg | addReg | sub | shr | subn | shl => simp [encode, decodeWord, decodeGroup8]
  | skp | sknp => simp [encode, decodeWord, decodeGroupE]
  | ldVxDt | ldVxK | ldDtVx | ldStVx | addI | ldF | ldB | ldMemVx | ldVxMem => simp [encode, decodeWord, decodeGroupF]

/-! ## From a word to its instruction and back -/

section Fields
variable {op : Word} {g : BitVec 4}

theorem wordNnn_of_fields (h0 : (fieldN0 op).toNat = g.toNat) : wordNnn g (fieldNnn op) = op := by
  rw [← BitVec.eq_of_toNat_eq h0, wordNnn_fields]

theorem wordXkk_of_fields (h0 : (fieldN0 op).toNat = g.toNat) {kk : Byte} (hk : fieldKk op = kk) :
    wordXkk g (fieldX op) kk = op := by
  rw [← BitVec.eq_of_toNat_eq h0, ← hk, wordXkk_fields]

theorem wordXyn_of_fields (h0 : (fieldN0 op).toNat = g.toNat) {n : BitVec 4} (hn : fieldN3 op = n) :
    wordXyn g (fieldX op) (fieldY op) n = op := by
  rw [← BitVec.eq_of_toNat_eq h0, ← hn, wordXyn_fields]

theorem nibble_fieldN (op : Word) : nibble (fieldN op) = fieldN3 op := by
  apply BitVec.eq_of_toNat_eq; rw [nibble_toNat, fieldN_val, fieldN3_toNat]

end Fields

/-- The word is the encoding of an instruction of the opcode map. -/
abbrev IsWordOf (op : Word) (i : Instr) : Prop := encode i = op ∧ i.wellFormed = true

section Groups
variable {op : Word} {i : Instr}

theorem isWordOf_decodeGroup0 (h0 : (fieldN0 op).toNat = 0x0) : IsWordOf op (decodeGroup0 op) := by
  have hop : wordNnn 0x0 (fieldNnn op) = op := wordNnn_of_fields h0
  unfold decodeGroup0
  split_ifs with hcls hret
  · exact ⟨by rw [← hop, hcls]; rfl, rfl⟩
  · exact ⟨by rw [← hop, hret]; rfl, rfl⟩
  · exact ⟨hop, by simp [Instr.wellFormed, sysAddrOk, hcls, hret]⟩

theorem isWordOf_decodeGroup8 (h0 : (fieldN0 op).toNat = 0x8) (h : decodeGroup8 op = .ok i) : IsWordOf op i := by
  unfold decodeGroup8 at h
  split_ifs at h <;> cases h <;> exact ⟨wordXyn_of_fields h0 ‹_›, rfl⟩

theorem isWordOf_decodeGroupE (h0 : (fieldN0 op).toNat = 0xE) (h : decodeGroupE op = .ok i) : IsWordOf op i := by
  unfold decodeGroupE at h
  split_ifs at h <;> cases h <;> exact ⟨wordXkk_of_fields h0 ‹_›, rfl⟩

theorem isWordOf_decodeGroupF (h0 : (fieldN0 op).toNat = 0xF) (h : decodeGroupF op = .ok i) : IsWordOf op i := by
  unfold decodeGroupF at h
  split_ifs at h <;> cases h <;> exact ⟨wordXkk_of_fields h0 ‹_›, rfl⟩

/-- The cases are the groups in order, group `g` at `h_(g+1)`. -/
theorem isWordOf_of_decodeWord (h : decodeWord op = .ok i) : IsWordOf op i := by
  unfold decodeWord at h
  split at h
  case h_1 h0 => cases h; exact isWordOf_decodeGroup0 h0
  case h_2 h0 | h_3 h0 | h_11 h0 | h_12 h0 => cases h; exact ⟨wordNnn_of_fields h0, rfl⟩
  case h_4 h0 | h_5 h0 | h_7 h0 | h_8 h0 | h_13 h0 => cases h; exact ⟨wordXkk_of_fields h0 rfl, rfl⟩
  case h_6 h0 | h_10 h0 =>
    split_ifs at h with h3
    cases h
    exact ⟨wordXyn_of_fields h0 h3, rfl⟩
  case h_9 h0 => exact isWordOf_decodeGroup8 h0 h
  case h_14 h0 => cases h; exact ⟨wordXyn_of_fields h0 (nibble_fieldN op).symm, rfl⟩
  case h_15 h0 => exact isWordOf_decodeGroupE h0 h
  case h_16 =>
    have h0 : (fieldN0 op).toNat = 0xF := by have := (fieldN0 op).isLt; grind
    exact isWordOf_decodeGroupF h0 h

end Groups

/-- Settles O2: every group's fields make up the whole word, and the decoder reads all of them. -/
theorem encodeDecodeRoundTrip : Obligations.EncodeDecodeRoundTrip := fun _ _ => isWordOf_of_decodeWord

/-! ## Which fields of a word select a row (30_encoding.md R74) -/

theorem wordNnn_inj {g g' : BitVec 4} {a a' : Addr12} : wordNnn g a = wordNnn g' a' ↔ g = g' ∧ a = a' :=
  ⟨fun h => ⟨by simpa using congrArg fieldN0 h, by simpa using congrArg fieldNnn h⟩, fun ⟨hg, ha⟩ => hg ▸ ha ▸ rfl⟩

theorem wordXkk_inj {g g' : BitVec 4} {x : RegIdx} {kk kk' : Byte} :
    wordXkk g x kk = wordXkk g' x kk' ↔ g = g' ∧ kk = kk' :=
  ⟨fun h => ⟨by simpa using congrArg fieldN0 h, by simpa using congrArg fieldKk h⟩, fun ⟨hg, hk⟩ => hg ▸ hk ▸ rfl⟩

theorem wordXyn_inj {g g' : BitVec 4} {x y : RegIdx} {n n' : BitVec 4} :
    wordXyn g x y n = wordXyn g' x y n' ↔ g = g' ∧ n = n' :=
  ⟨fun h => ⟨by simpa using congrArg fieldN0 h, by simpa using congrArg fieldN3 h⟩, fun ⟨hg, hn⟩ => hg ▸ hn ▸ rfl⟩

/-! The pattern's fields are written out as extractions, which `simp` evaluates on the literal patterns of the table. -/

section Selects
variable (op p : Word) (b : Word → Instr)

theorem selects_fixed : Row.selects ⟨0xFFFF#16, p, b⟩ op =
    decide (fieldN0 op = p.extractLsb' 12 4 ∧ fieldNnn op = p.extractLsb' 0 12) := by
  have hmask : op &&& 0xFFFF#16 = op := BitVec.and_allOnes
  rw [Bool.eq_iff_iff, Row.selects, hmask, beq_iff_eq, decide_eq_true_iff]
  conv_lhs => rw [← wordNnn_fields op, ← wordNnn_fields p, wordNnn_inj]
  rfl

theorem selects_major (hp : p &&& 0xF000#16 = p) :
    Row.selects ⟨0xF000#16, p, b⟩ op = decide (fieldN0 op = p.extractLsb' 12 4) := by
  rw [Bool.eq_iff_iff, Row.selects, beq_iff_eq, decide_eq_true_iff]
  conv_lhs => rw [← hp, mask_major, mask_major, wordNnn_inj, and_iff_left rfl]
  rfl

theorem selects_xy (hp : p &&& 0xF00F#16 = p) : Row.selects ⟨0xF00F#16, p, b⟩ op =
    decide (fieldN0 op = p.extractLsb' 12 4 ∧ fieldN3 op = p.extractLsb' 0 4) := by
  rw [Bool.eq_iff_iff, Row.selects, beq_iff_eq, decide_eq_true_iff]
  conv_lhs => rw [← hp, mask_xy, mask_xy, wordXyn_inj]
  rfl

theorem selects_x (hp : p &&& 0xF0FF#16 = p) : Row.selects ⟨0xF0FF#16, p, b⟩ op =
    decide (fieldN0 op = p.extractLsb' 12 4 ∧ fieldKk op = p.extractLsb' 0 8) := by
  rw [Bool.eq_iff_iff, Row.selects, beq_iff_eq, decide_eq_true_iff]
  conv_lhs => rw [← hp, mask_x, mask_x, wordXkk_inj]
  rfl

end Selects

/-! ## The first selected row -/

/-- `tableDecode` for a part of the table: the instruction of the first of the rows that the word selects. -/
def firstSelected (rows : List Row) (op : Word) : Option Instr := (rows.find? (·.selects op)).map (·.build op)

theorem tableDecode_eq_firstSelected (op : Word) : tableDecode op = firstSelected opcodeTable op := rfl

@[simp] theorem firstSelected_nil (op : Word) : firstSelected [] op = none := rfl

@[simp] theorem firstSelected_cons (r : Row) (rows : List Row) (op : Word) :
    firstSelected (r :: rows) op = if r.selects op then some (r.build op) else firstSelected rows op := by
  by_cases h : r.selects op <;> simp [firstSelected, h]

@[simp] theorem toOption_ok (i : Instr) : (.ok i : Except Reject Instr).toOption = some i := rfl

@[simp] theorem toOption_error (r : Reject) : (.error r : Except Reject Instr).toOption = none := rfl

/-- The 16 groups. -/
theorem nibble_cases : ∀ g : BitVec 4, g = 0x0 ∨ g = 0x1 ∨ g = 0x2 ∨ g = 0x3 ∨ g = 0x4 ∨ g = 0x5 ∨ g = 0x6 ∨ g = 0x7 ∨
    g = 0x8 ∨ g = 0x9 ∨ g = 0xA ∨ g = 0xB ∨ g = 0xC ∨ g = 0xD ∨ g = 0xE ∨ g = 0xF := by decide

/-- In each group the rows of the other groups drop out, and those left test the sub-opcode as the group's decoder does,
in the same order. -/
theorem tableDecode_eq_toOption (op : Word) : tableDecode op = (decodeWord op).toOption := by
  rw [tableDecode_eq_firstSelected, opcodeTable, rowsFixed, rowsMajor, rowsXy, rowsX]
  rcases nibble_cases (fieldN0 op) with
      h0 | h0 | h0 | h0 | h0 | h0 | h0 | h0 | h0 | h0 | h0 | h0 | h0 | h0 | h0 | h0 <;>
    simp [h0, selects_fixed, selects_major, selects_xy, selects_x, decodeWord, decodeGroup0, decodeGroup8, decodeGroupE,
      decodeGroupF, apply_ite Except.toOption, apply_ite some]

/-! ## Rows that no word selects together -/


/-- The patterns differ in a bit that both masks keep. -/
abbrev Row.differs (a b : Row) : Prop := a.pattern &&& b.mask ≠ b.pattern &&& a.mask

theorem not_selects_both {a b : Row} (h : a.differs b) (op : Word) :
    ¬(a.selects op = true ∧ b.selects op = true) := by
  rintro ⟨ha, hb⟩
  rw [Row.selects, beq_iff_eq] at ha hb
  apply h
  calc a.pattern &&& b.mask = op &&& a.mask &&& b.mask := by rw [ha]
    _ = op &&& b.mask &&& a.mask := by rw [BitVec.and_assoc, BitVec.and_assoc, BitVec.and_comm a.mask]
    _ = b.pattern &&& a.mask := by rw [hb]

/-- Settles O3: the decoder and the table test the same fields, and the patterns of two rows, other than `SYS` and `CLS` or
`RET`, differ in a bit that both masks keep. -/
theorem decoderAgreesWithTable : Obligations.DecoderAgreesWithTable := by
  have hrows : (rowsFixed ++ rowsMajor.tail ++ rowsXy ++ rowsX).Pairwise Row.differs := by decide
  have hsys : ∀ a ∈ rowsMajor.head?, ∀ b ∈ rowsMajor.tail ++ rowsXy ++ rowsX, a.differs b := by decide
  exact ⟨tableDecode_eq_toOption, hrows.imp not_selects_both, fun a ha b hb => not_selects_both (hsys a ha b hb)⟩

/-- Settles O6: each word is evaluated. -/
theorem writtenOutWordsDecode : Obligations.WrittenOutWordsDecode := by
  unfold Obligations.WrittenOutWordsDecode
  decide

end Sys2Proof

/-! Which words are legal, how many there are, and what the others do when they are fetched (30_encoding.md R80, R81). -/

namespace Sys2Proof.Machine

/-! ## The decoder's verdict -/

/-- `legalWord` as a function of the decoder's result, so that it can be pushed into the decoder's tests. -/
def legalResult : Except Reject Instr → Bool
  | .ok (.sys _) | .error _ => false
  | .ok _ => true

theorem legalWord_eq_legalResult (op : Word) : legalWord op = legalResult (decodeWord op) := rfl

@[simp] theorem legalResult_error (r : Reject) : legalResult (.error r) = false := rfl

@[simp] theorem legalResult_sys (nnn : Addr12) : legalResult (.ok (.sys nnn)) = false := rfl

@[simp] theorem legalResult_ok {i : Instr} (hi : ∀ nnn, i ≠ .sys nnn) : legalResult (.ok i) = true := by
  cases i with
  | sys nnn => exact absurd rfl (hi nnn)
  | _ => rfl

section Groups
variable (op : Word)

/-- In group 0 the address is the whole word. -/
theorem legalResult_decodeGroup0 (h0 : fieldN0 op = 0x0) :
    legalResult (.ok (decodeGroup0 op)) = (op.toNat == 0x00E0 || op.toNat == 0x00EE) := by
  have hop : op.toNat = (fieldNnn op).toNat := by
    conv_lhs => rw [← wordNnn_fields op, wordNnn_toNat, h0]
    exact Nat.zero_add _
  simp [hop, decodeGroup0, apply_ite legalResult, apply_ite (Except.ok (ε := Reject)), ← BitVec.toNat_inj, beq_eq_decide]

theorem legalResult_decodeGroup8 : legalResult (decodeGroup8 op) =
    !((fieldN3 op).toNat == 8 || (fieldN3 op).toNat == 9 || (fieldN3 op).toNat == 10 || (fieldN3 op).toNat == 11 ||
      (fieldN3 op).toNat == 12 || (fieldN3 op).toNat == 13 || (fieldN3 op).toNat == 15) := by
  simp only [decodeGroup8, apply_ite legalResult, legalResult_error, legalResult_ok, ne_eq, reduceCtorEq,
    not_false_eq_true, implies_true]
  generalize fieldN3 op = n
  revert n
  decide

theorem legalResult_decodeGroupE : legalResult (decodeGroupE op) =
    ((fieldKk op).toNat == 0x9E || (fieldKk op).toNat == 0xA1) := by
  simp [decodeGroupE, apply_ite legalResult, ← BitVec.toNat_inj, beq_eq_decide]

theorem legalResult_decodeGroupF : legalResult (decodeGroupF op) =
    ((fieldKk op).toNat == 0x07 || (fieldKk op).toNat == 0x0A || (fieldKk op).toNat == 0x15 ||
      (fieldKk op).toNat == 0x18 || (fieldKk op).toNat == 0x1E || (fieldKk op).toNat == 0x29 ||
      (fieldKk op).toNat == 0x33 || (fieldKk op).toNat == 0x55 || (fieldKk op).toNat == 0x65) := by
  simp [decodeGroupF, apply_ite legalResult, ← BitVec.toNat_inj, beq_eq_decide, Bool.or_assoc]

end Groups

/-- In each group both sides test the same sub-opcodes; a group without one is legal as a whole. -/
theorem legalWord_eq_not_illegalWord (op : Word) : legalWord op = !illegalWord op.toNat := by
  simp only [legalWord_eq_legalResult, decodeWord, illegalWord, ← fieldN0_toNat, ← fieldN3_toNat, ← fieldKk_toNat]
  rcases nibble_cases (fieldN0 op) with
      h0 | h0 | h0 | h0 | h0 | h0 | h0 | h0 | h0 | h0 | h0 | h0 | h0 | h0 | h0 | h0 <;>
    simp [h0, legalResult_decodeGroup0, legalResult_decodeGroup8, legalResult_decodeGroupE, legalResult_decodeGroupF,
      apply_ite legalResult, ← BitVec.toNat_inj, beq_eq_decide, bne]

theorem legalWord_iff (op : Word) : legalWord op = true ↔ ∃ i, decodeWord op = .ok i ∧ ∀ nnn, i ≠ .sys nnn := by
  rw [legalWord_eq_legalResult]
  constructor
  · intro h
    cases hd : decodeWord op with
    | error r => rw [hd] at h; cases h
    | ok i => exact ⟨i, rfl, fun nnn hi => by rw [hd, hi] at h; cases h⟩
  · rintro ⟨i, hd, hi⟩
    rw [hd, legalResult_ok hi]

/-! ## Illegal words in the CPU's step -/

/-- A fetched word that is not legal, rejected or `SYS`, ends in the same fault entry: `SYS` raises it itself (R101). -/
theorem cpuCycle_of_not_legalWord {s : State} {op : Word} (hf : fetch s = .ok op) (h : legalWord op = false) :
    cpuCycle s = .next (s.faultEntry ⟨.decodeError, op, s.pc, 0⟩) := by
  cases hd : decodeWord op with
  | error r => exact cpuCycle_illegal s op r hf hd
  | ok i =>
    cases i with
    | sys nnn =>
      obtain ⟨hop, -⟩ := isWordOf_of_decodeWord hd
      rw [cpuCycle_legal s op _ hf hd, ← hop]; rfl
    | _ => exact absurd ((legalWord_iff op).mpr ⟨_, hd, nofun⟩) (by simp [h])

/-- Settles O4: R80's table is the complement of the words the decoder reads as an instruction other than `SYS`. -/
theorem illegalWordsRaiseDecodeError : Obligations.IllegalWordsRaiseDecodeError := by
  intro s hrun hpc
  have hlegal := legalWord_eq_not_illegalWord (wordAtPc s)
  constructor
  · intro hw
    rw [hw] at hlegal
    refine ⟨_, (cpuStep_running s hrun).trans (cpuCycle_of_not_legalWord (fetch_ok s hpc) hlegal), ?_⟩
    rw [FaultEntered, BitVec.ofNat_toNat, BitVec.setWidth_eq]; rfl
  · intro hw
    rw [hw] at hlegal
    obtain ⟨i, hd, hi⟩ := (legalWord_iff _).mp hlegal
    exact ⟨i, hd, hi, cpuStep_eq_exec hrun hpc hd⟩

/-! ## Counting the legal words -/

theorem legalWord_ofNat {g : Fin 16} {k : Nat} (hk : k < 4096) :
    legalWord (BitVec.ofNat 16 (4096 * g.val + k)) = !illegalWord (4096 * g.val + k) := by
  have hlt : 4096 * g.val + k < 2 ^ 16 := by omega
  rw [legalWord_eq_not_illegalWord, BitVec.toNat_ofNat, Nat.mod_eq_of_lt hlt]

/-- Outside group 0 the field `x` does not tell whether a word is illegal. -/
theorem illegalWord_lowByte {g : Fin 16} (hg : g ≠ 0) {k : Nat} (hk : k < 4096) :
    illegalWord (4096 * g.val + k) = illegalWord (4096 * g.val + k % 256) := by
  have hg0 : (g.val == 0) = false := beq_eq_false_iff_ne.mpr fun h => hg (Fin.ext h)
  have hn0 : (4096 * g.val + k) / 4096 = g.val := by omega
  have hn0' : (4096 * g.val + k % 256) / 4096 = g.val := by omega
  have hn3 : (4096 * g.val + k) % 16 = (4096 * g.val + k % 256) % 16 := by omega
  have hkk : (4096 * g.val + k) % 256 = (4096 * g.val + k % 256) % 256 := by omega
  simp only [illegalWord, hn0, hn0', hn3, hkk, hg0, Bool.false_and]

theorem countP_range_mod (q : Nat → Bool) (n m : Nat) :
    (List.range (n * m)).countP (fun k => q (k % n)) = m * (List.range n).countP q := by
  induction m with
  | zero => simp
  | succ m ih =>
    have hlast : (List.range n).countP (fun k => q ((n * m + k) % n)) = (List.range n).countP q := by
      refine List.countP_congr fun k hk => ?_
      rw [Nat.mul_add_mod, Nat.mod_eq_of_lt (List.mem_range.mp hk)]
    rw [Nat.mul_succ, List.range_add, List.countP_append, List.countP_map, ih, Nat.succ_mul]
    exact congrArg _ hlast

/-- How many low bytes are legal in a group, 16 times over for the values of `x`. -/
theorem sixteen_mul_countP_lowByte : ∀ g : Fin 16, g ≠ 0 →
    16 * (List.range 256).countP (fun kk => !illegalWord (4096 * g.val + kk)) = legalCount g := by decide +kernel

/-- The legal words of group 0, `CLS` and `RET`, are among the 256 with `x = 0`. -/
theorem countP_group0 : (List.range 4096).countP (fun k => !illegalWord k) = 2 := by
  have htail : ((List.range 3840).map (256 + ·)).countP (fun k => !illegalWord k) = 0 := by
    rw [List.countP_map, List.countP_eq_zero]
    intro k hk
    have hlt : k < 3840 := List.mem_range.mp hk
    have hn0 : (256 + k) / 4096 = 0 := by omega
    have hcls : 256 + k ≠ 0x00E0 := by omega
    have hret : 256 + k ≠ 0x00EE := by omega
    simp [illegalWord, hn0, hcls, hret]
  calc (List.range 4096).countP (fun k => !illegalWord k)
      = (List.range 256).countP (fun k => !illegalWord k) +
          ((List.range 3840).map (256 + ·)).countP (fun k => !illegalWord k) := by
        rw [← List.countP_append, ← List.range_add]
    _ = 2 := by rw [htail]; decide +kernel

theorem countP_legalWord (g : Fin 16) :
    (List.range 4096).countP (fun k => legalWord (BitVec.ofNat 16 (4096 * g.val + k))) = legalCount g := by
  have hcount : (List.range 4096).countP (fun k => legalWord (BitVec.ofNat 16 (4096 * g.val + k))) =
      (List.range 4096).countP (fun k => !illegalWord (4096 * g.val + k)) :=
    List.countP_congr fun k hk => by rw [legalWord_ofNat (List.mem_range.mp hk)]
  rw [hcount]
  by_cases hg : g = 0
  · subst hg; simpa [legalCount] using countP_group0
  · calc (List.range 4096).countP (fun k => !illegalWord (4096 * g.val + k))
        = (List.range (256 * 16)).countP (fun k => !illegalWord (4096 * g.val + k % 256)) :=
          List.countP_congr fun k hk => by rw [illegalWord_lowByte hg (List.mem_range.mp hk)]
      _ = 16 * (List.range 256).countP (fun kk => !illegalWord (4096 * g.val + kk)) :=
          countP_range_mod (fun kk => !illegalWord (4096 * g.val + kk)) 256 16
      _ = legalCount g := sixteen_mul_countP_lowByte g hg

/-- Settles O5: group 0 has two legal words, and in every other group the legal low bytes count once for each `x`. -/
theorem legalWordCounts : Obligations.LegalWordCounts :=
  ⟨countP_legalWord, by simp only [countP_legalWord]; decide⟩

end Sys2Proof.Machine

/-! The control-flow instructions, and how every instruction leaves `PC` (40_control_flow.md R100 to R109). -/

namespace Sys2Proof.Machine

/-! ## Words, operands and records named by their numbers -/

theorem ofNat_eq_of_toNat_eq {w n : Nat} {b : BitVec w} (h : b.toNat = n) : BitVec.ofNat w n = b := by
  rw [← h, BitVec.ofNat_toNat, BitVec.setWidth_eq]

/-- The decoder reads the number of a well-formed instruction's word as that instruction. -/
theorem decodeWord_ofNat {i : Instr} {n : Nat} (hi : i.wellFormed = true) (hn : (encode i).toNat = n) :
    decodeWord (BitVec.ofNat 16 n) = .ok i := by
  rw [ofNat_eq_of_toNat_eq hn]
  exact decodeEncodeRoundTrip i hi

theorem encode_sys_toNat (nnn : Addr12) : (encode (.sys nnn)).toNat = nnn.toNat :=
  (wordNnn_toNat 0x0 nnn).trans (Nat.zero_add _)

theorem encode_call_toNat (nnn : Addr12) : (encode (.call nnn)).toNat = 0x2000 + nnn.toNat :=
  wordNnn_toNat 0x2 nnn

theorem encode_seByte_toNat (x : RegIdx) (kk : Byte) :
    (encode (.seByte x kk)).toNat = 0x3000 + 256 * x.val + kk.toNat := by
  rw [Nat.mul_comm]; exact wordXkk_toNat 0x3 x kk

theorem encode_sneByte_toNat (x : RegIdx) (kk : Byte) :
    (encode (.sneByte x kk)).toNat = 0x4000 + 256 * x.val + kk.toNat := by
  rw [Nat.mul_comm]; exact wordXkk_toNat 0x4 x kk

theorem encode_seReg_toNat (x y : RegIdx) : (encode (.seReg x y)).toNat = 0x5000 + 256 * x.val + 16 * y.val := by
  rw [Nat.mul_comm 256, Nat.mul_comm 16]; exact wordXyn_toNat 0x5 x y 0x0

theorem encode_sneReg_toNat (x y : RegIdx) : (encode (.sneReg x y)).toNat = 0x9000 + 256 * x.val + 16 * y.val := by
  rw [Nat.mul_comm 256, Nat.mul_comm 16]; exact wordXyn_toNat 0x9 x y 0x0

theorem addrOperand_eq_ofNat (nnn : Addr12) : addrOperand nnn = BitVec.ofNat 16 nnn.toNat :=
  (ofNat_eq_of_toNat_eq (addrOperand_toNat nnn)).symm

/-- The target of `JP V0, addr` is the sum itself: it never wraps (R109). -/
theorem addrOperand_add_byteOffset_toNat (nnn : Addr12) (b : Byte) :
    (addrOperand nnn + byteOffset b).toNat = nnn.toNat + b.toNat := by
  have hn := nnn.isLt
  have hb := b.isLt
  rw [BitVec.toNat_add, addrOperand_toNat, byteOffset_toNat]; omega

theorem faultEntered_faultEntry (s : State) (kind : FaultKind) {op : Word} {a : Addr17} {n m : Nat}
    (hop : op.toNat = n) (ha : a.toNat = m) : FaultEntered s kind n m (s.faultEntry ⟨kind, op, s.pc, a⟩) := by
  rw [FaultEntered, ofNat_eq_of_toNat_eq hop, ofNat_eq_of_toNat_eq ha]; rfl

/-- A fetch above 0x0FFE fails: the record holds opcode 0 and the lowest address that does not exist (R181, R203). -/
theorem cpuStep_faultEntered_of_fetch {s : State} (hrun : s.run = .running) (hpc : 0xFFE < s.pc.toNat) :
    ∃ t, cpuStep s = .next t ∧ FaultEntered s .memoryFault 0 (max s.pc.toNat 0x1000) t := by
  obtain ⟨a, hfetch, ha⟩ := fetch_error s hpc
  exact ⟨_, (cpuStep_running s hrun).trans (cpuCycle_fetchFault s a hfetch), faultEntered_faultEntry s _ rfl ha⟩

/-! ## Skips (R100) -/

theorem State.skipIf_eq (s : State) (c : Bool) :
    s.skipIf c = { s with pc := if c then s.pc + 4#16 else s.pc + 2#16 } := rfl

theorem skipped_skipIf (s : State) {C : Prop} {c : Bool} (h : c = true ↔ C) : Skipped s C (s.skipIf c) := by
  rw [State.skipIf_eq]
  exact ⟨fun hC => by rw [if_pos (h.mpr hC)], fun hC => by rw [if_neg (mt h.mp hC)]⟩

/-! ## The call stack: `RET` and `CALL` in each state of `SP` (R102, R104) -/

/-- The state after a `CALL` that takes slot `k`. -/
def State.called (s : State) (nnn : Addr12) (k : Fin 16) : State :=
  { s with pc := BitVec.ofNat 16 nnn.toNat, sp := k.succ, stack := s.stack.set k (s.pc + 2#16) }

section Stack
variable {s : State} {k : Fin 16}

theorem exec_ret_succ (h : s.sp = k.succ) : exec .ret s = .next { s with pc := s.stack[k], sp := k.castSucc } := by
  have hpos : 0 < s.sp.val := by rw [h]; exact k.succ_pos
  simp only [exec, execRet, s.pop_eq hpos, h]
  rfl

theorem exec_ret_zero (h : s.sp = 0) : exec .ret s = .next (s.faultEntry ⟨.stackUnderflow, 0x00EE, s.pc, 0⟩) := by
  simp only [exec, execRet, s.pop_empty (congrArg Fin.val h)]
  rfl

theorem State.called_pc_toNat (nnn : Addr12) : (s.called nnn k).pc.toNat = nnn.toNat := by
  rw [State.called, ← addrOperand_eq_ofNat, addrOperand_toNat]

theorem exec_call_castSucc (nnn : Addr12) (h : s.sp = k.castSucc) : exec (.call nnn) s = .next (s.called nnn k) := by
  have hlt : s.sp.val < 16 := by rw [h]; exact k.isLt
  simp only [exec, execCall, s.push_eq _ hlt, h, addrOperand_eq_ofNat]
  rfl

theorem exec_call_last (nnn : Addr12) (h : s.sp = Fin.last 16) :
    exec (.call nnn) s = .next (s.faultEntry ⟨.stackOverflow, encode (.call nnn), s.pc, 0⟩) := by
  simp only [exec, execCall, s.push_full _ (congrArg Fin.val h)]
  rfl

end Stack

theorem getElem_set_slot (stack : Vector Word 16) (k j : Fin 16) (w : Word) :
    (stack.set k w)[j] = if j = k then w else stack[j] := by
  simp only [Fin.getElem_fin, Vector.getElem_set, Fin.ext_iff, eq_comm]

/-! ## The PC effect of every instruction (R100) -/

/-- The state `t` is one where the effect leaves an instruction that started in `s` (R100). -/
def PcEffect.Leads (e : PcEffect) (s t : State) : Prop :=
  match e with
  | .next => t.pc = s.pc + 2#16
  | .skip => t.pc = s.pc + 4#16
  | .hold => t = s
  | .target w => t.pc = w

theorem leads_skipIf (s : State) {c d : Bool} (h : c = d) : (skipWhen d).Leads s (s.skipIf c) := by
  subst h
  cases c <;> rfl

theorem keyDown_keyIndex (s : State) (b : Byte) :
    s.keyDown (keyIndex b) = s.key[b.toNat % 16]'(Nat.mod_lt _ (by decide)) := by
  simp only [State.keyDown, Fin.getElem_fin, keyIndex_val]

@[simp] theorem State.drawn_pc (s : State) : s.drawn.pc = s.pc := by
  obtain ⟨l, k, hd⟩ := s.drawn_eq
  rw [hd]

/-- The two ends of an instruction: fault entry with the record R202's table gives it, or, where the table gives none, a
state with the property `P`. -/
def Ends (i : Instr) (s : State) (P : State → Prop) : Prop :=
  (∃ r, executeFault (encode i) i s = some r ∧ exec i s = .next (s.faultEntry r)) ∨
    (executeFault (encode i) i s = none ∧ ∃ t, exec i s = .next t ∧ P t)

/-- An instruction that checks its span of addresses first ends as R202's table says. -/
theorem ends_bounded {i : Instr} {s t : State} {n : Nat} {C : Prop} [Decidable C] {P : State → Prop}
    (hexec : exec i s =
      if spanOk s.i.toNat n then .next t else raise .memoryFault (encode i) (lowestBad s.i.toNat) s)
    (hfault : executeFault (encode i) i s =
      if C then some ⟨.memoryFault, encode i, s.pc, lowestBad s.i.toNat⟩ else none)
    (hC : C ↔ s.i.toNat + n > 0x1000 ∧ n ≠ 0) (ht : P t) : Ends i s P := by
  have hspan : spanOk s.i.toNat n = true ↔ ¬C := by rw [spanOk_iff, hC]; omega
  by_cases h : C
  · exact .inl ⟨_, hfault.trans (if_pos h), hexec.trans (if_neg fun hs => hspan.mp hs h)⟩
  · exact .inr ⟨hfault.trans (if_neg h), t, hexec.trans (if_pos (hspan.mpr h)), ht⟩

theorem ends_ret (s : State) : Ends .ret s ((pcEffect .ret s).Leads s) := by
  rcases Fin.eq_zero_or_eq_succ s.sp with h | ⟨k, h⟩
  · exact .inl ⟨_, if_pos (congrArg Fin.val h), exec_ret_zero h⟩
  · have hpos : s.sp.val ≠ 0 := by rw [h]; exact Nat.succ_ne_zero _
    refine .inr ⟨if_neg hpos, _, exec_ret_succ h, ?_⟩
    simp [PcEffect.Leads, pcEffect, h]

theorem ends_call (nnn : Addr12) (s : State) : Ends (.call nnn) s ((pcEffect (.call nnn) s).Leads s) := by
  rcases Fin.eq_castSucc_or_eq_last s.sp with ⟨k, h⟩ | h
  · have hfree : s.sp.val ≠ 16 := by rw [h]; exact k.isLt.ne
    exact .inr ⟨if_neg hfree, _, exec_call_castSucc nnn h, rfl⟩
  · exact .inl ⟨_, if_pos (congrArg Fin.val h), exec_call_last nnn h⟩

theorem ends_ldVxK (x : RegIdx) (s : State) : Ends (.ldVxK x) s ((pcEffect (.ldVxK x) s).Leads s) := by
  have hnone : s.lowestKey = none ↔ ∀ k : Fin 16, s.key[k] = false := s.lowestKey_none
  refine .inr ⟨rfl, ?_⟩
  cases hk : s.lowestKey with
  | none =>
    refine ⟨s, by simp only [exec, execLdVxK, hk], ?_⟩
    rw [pcEffect, if_pos (hnone.mp hk)]; rfl
  | some k =>
    refine ⟨(s.setReg x (BitVec.ofNat 8 k.val)).next, by simp only [exec, execLdVxK, hk], ?_⟩
    rw [pcEffect, if_neg (mt hnone.mpr (by simp [hk]))]; rfl

theorem ends_pcEffect (i : Instr) (s : State) : Ends i s ((pcEffect i s).Leads s) := by
  cases i with
  | sys => exact .inl ⟨_, rfl, rfl⟩
  | ret => exact ends_ret s
  | jp nnn => exact .inr ⟨rfl, _, rfl, addrOperand_eq_ofNat nnn⟩
  | call nnn => exact ends_call nnn s
  | jpV0 nnn => exact .inr ⟨rfl, _, rfl, (ofNat_eq_of_toNat_eq (addrOperand_add_byteOffset_toNat nnn _)).symm⟩
  | seByte | seReg => exact .inr ⟨rfl, _, rfl, leads_skipIf s (beq_eq_decide ..)⟩
  | sneByte | sneReg => exact .inr ⟨rfl, _, rfl, leads_skipIf s (by simp [bne, beq_eq_decide, State.reg])⟩
  | skp => exact .inr ⟨rfl, _, rfl, leads_skipIf s (keyDown_keyIndex ..)⟩
  | sknp => exact .inr ⟨rfl, _, rfl, leads_skipIf s (congrArg _ (keyDown_keyIndex ..))⟩
  | ldVxK x => exact ends_ldVxK x s
  | drw | ldB | ldMemVx | ldVxMem => exact ends_bounded rfl rfl (by omega) rfl
  | rnd => exact .inr ⟨rfl, _, rfl, congrArg nextPc s.drawn_pc⟩
  | cls | ldByte | addByte | ldReg | orReg | andReg | xorReg | addReg | sub | shr | subn | shl =>
    exact .inr ⟨rfl, _, rfl, rfl⟩
  | ldI | ldVxDt | ldDtVx | ldStVx | addI | ldF => exact .inr ⟨rfl, _, rfl, rfl⟩

/-- Settles O24: fault entry keeps `PC`, and every other end is where the instruction's effect leads. -/
theorem pcEffects : Obligations.PcEffects := by
  intro i s
  rcases ends_pcEffect i s with ⟨r, hr, he⟩ | ⟨hn, t, he, ht⟩
  · exact ⟨_, he, fun _ => rfl, fun hn => by rw [hn] at hr; cases hr⟩
  · exact ⟨t, he, fun h => absurd hn h, fun _ => ht⟩

/-! ## Control flow, instruction by instruction (R101 to R109) -/

/-- Settles O16: the entry's opcode is the word `0nnn`. -/
theorem sysRaisesDecodeError : Obligations.SysRaisesDecodeError := by
  intro nnn s
  refine ⟨fun hcls hret => decodeWord_ofNat ?_ (encode_sys_toNat nnn), _, rfl,
    faultEntered_faultEntry s _ (encode_sys_toNat nnn) rfl⟩
  simpa [Instr.wellFormed, sysAddrOk] using ⟨hcls, hret⟩

/-- Settles O17: `RET` in the two states of `SP`. -/
theorem returnPopsAddress : Obligations.ReturnPopsAddress := fun s =>
  ⟨rfl, fun _ h => exec_ret_succ h, fun h => ⟨_, exec_ret_zero h, faultEntered_faultEntry s _ rfl rfl⟩⟩

/-- Settles O18: the operand is `nnn` extended with zeros. -/
theorem jumpSetsPc : Obligations.JumpSetsPc := by
  intro nnn s
  refine ⟨decodeWord_ofNat rfl (wordNnn_toNat 0x1 nnn), ?_⟩
  rw [← addrOperand_eq_ofNat]; rfl

/-- Settles O19: `CALL` in the two states of `SP`; the push writes slot `SP` alone. -/
theorem callPushesReturnAddress : Obligations.CallPushesReturnAddress := by
  intro nnn s
  refine ⟨decodeWord_ofNat rfl (encode_call_toNat nnn), fun k h => ?_, fun h => ?_⟩
  · exact ⟨_, exec_call_castSucc nnn h, fun j => getElem_set_slot s.stack k j _⟩
  · exact ⟨_, exec_call_last nnn h, faultEntered_faultEntry s _ (encode_call_toNat nnn) rfl⟩

/-- Settles O20: the `RET` finds `SP` one above the slot the `CALL` wrote, and reads that slot. -/
theorem callThenReturnComesBack : Obligations.CallThenReturnComesBack := by
  intro s nnn hrun hpc hword hnnn hhi hlo hsp
  obtain ⟨k, hk⟩ : ∃ k : Fin 16, s.sp = k.castSucc := ⟨⟨s.sp.val, hsp⟩, rfl⟩
  have hcall : decodeWord (wordAtPc s) = .ok (.call nnn) := by
    rw [← ofNat_eq_of_toNat_eq hword]; exact decodeWord_ofNat rfl (encode_call_toNat nnn)
  have htarget : (s.called nnn k).pc.toNat ≤ 0xFFE := by rwa [State.called_pc_toNat]
  have hret : decodeWord (wordAtPc (s.called nnn k)) = .ok .ret := by
    have hmem : (s.called nnn k).mem = s.mem := rfl
    rw [wordAtPc, State.called_pc_toNat, hmem, hhi, hlo]; rfl
  have hslot : (s.called nnn k).stack[k] = s.pc + 2#16 := (getElem_set_slot s.stack k k _).trans (if_pos rfl)
  refine ⟨_, _, (cpuStep_eq_exec hrun hpc hcall).trans (exec_call_castSucc nnn hk),
    (cpuStep_eq_exec (s := s.called nnn k) hrun htarget hret).trans (exec_ret_succ rfl), ?_, fun j => ?_⟩
  · rw [hslot, ← hk]; rfl
  · rw [hk]; exact (getElem_set_slot s.stack k j _).trans (if_congr Fin.ext_iff rfl rfl)

/-- Settles O21: both skips compare `V[x]` with the byte. -/
theorem skipOnByte : Obligations.SkipOnByte := fun x kk s =>
  ⟨decodeWord_ofNat rfl (encode_seByte_toNat x kk), decodeWord_ofNat rfl (encode_sneByte_toNat x kk),
    ⟨_, rfl, skipped_skipIf s beq_iff_eq⟩, ⟨_, rfl, skipped_skipIf s bne_iff_ne⟩⟩

/-- Settles O22: both skips compare `V[x]` with `V[y]`. -/
theorem skipOnRegister : Obligations.SkipOnRegister := fun x y s =>
  ⟨decodeWord_ofNat rfl (encode_seReg_toNat x y), decodeWord_ofNat rfl (encode_sneReg_toNat x y),
    ⟨_, rfl, skipped_skipIf s beq_iff_eq⟩, ⟨_, rfl, skipped_skipIf s bne_iff_ne⟩⟩

/-- Settles O23: the sum is the target itself, and a fetch from a target above 0x0FFE fails. -/
theorem indexedJump : Obligations.IndexedJump := by
  intro nnn s
  refine ⟨decodeWord_ofNat rfl (wordNnn_toNat 0xB nnn), addrOperand nnn + byteOffset (s.reg 0),
    addrOperand_add_byteOffset_toNat nnn _, rfl, fun hrun hw => ?_⟩
  exact cpuStep_faultEntered_of_fetch (s := s.setPc _) hrun hw

end Sys2Proof.Machine

/-! Register load and ALU (41_register_alu.md R111 to R122): the word of each instruction, the result and the flag as
numbers, and the two shapes of a register write. -/

namespace Sys2Proof.Machine

/-! ## The words (30_encoding.md R76, R77) -/

theorem encode_ldByte_toNat (x : RegIdx) (kk : Byte) :
    (encode (.ldByte x kk)).toNat = 0x6000 + 256 * x.val + kk.toNat := by
  rw [Nat.mul_comm]; exact wordXkk_toNat 0x6 x kk

theorem encode_addByte_toNat (x : RegIdx) (kk : Byte) :
    (encode (.addByte x kk)).toNat = 0x7000 + 256 * x.val + kk.toNat := by
  rw [Nat.mul_comm]; exact wordXkk_toNat 0x7 x kk

/-- The decoder reads `8xyn` as the instruction whose word is in group 8 with the sub-opcode `n`. -/
theorem decodeWord_group8 {i : Instr} {x y : RegIdx} (n : BitVec 4) (hi : i.wellFormed = true)
    (he : encode i = wordXyn 0x8#4 x y n) :
    decodeWord (BitVec.ofNat 16 (0x8000 + n.toNat + 256 * x.val + 16 * y.val)) = .ok i := by
  refine decodeWord_ofNat hi ?_
  have hgroup : (0x8#4).toNat = 8 := rfl
  rw [he, wordXyn_toNat, hgroup]; omega

/-! ## Results modulo 256 (R110) -/

/-- A subtraction that borrows wraps modulo 256. -/
theorem toNat_sub_byte (a b : Byte) :
    (a - b).toNat = if a.toNat ≥ b.toNat then a.toNat - b.toNat else a.toNat + 256 - b.toNat := by
  have ha := a.isLt
  have hb := b.isLt
  rw [BitVec.toNat_sub]
  split <;> omega

theorem toNat_shiftRight_one_byte (a : Byte) : (a >>> 1).toNat = a.toNat / 2 := by
  rw [BitVec.toNat_ushiftRight, Nat.shiftRight_one]

theorem toNat_shiftLeft_one_byte (a : Byte) : (a <<< 1).toNat = 2 * a.toNat % 256 := by
  rw [BitVec.toNat_shiftLeft, Nat.shiftLeft_eq, Nat.mul_comm]

/-! ## The two shapes of a register write -/

theorem regWritten_setReg (s : State) (x : RegIdx) {b : Byte} {n : Nat} (hb : b.toNat = n) :
    RegWritten s x n (s.setReg x b).next := by
  refine ⟨s.v.set x b, rfl, fun r => ?_⟩
  have hread : (s.v.set x b)[r] = if r = x then b else s.v[r] := s.reg_setReg x r b
  rw [hread, apply_ite BitVec.toNat, hb]

/-- The flag is written last, so it wins where `x` is 15 (R122). -/
theorem regFlagWritten_setRegFlag (s : State) (x : RegIdx) {b f : Byte} {n m : Nat} (hb : b.toNat = n)
    (hf : f.toNat = m) : RegFlagWritten s x n m (s.setRegFlag x b f).next := by
  refine ⟨(s.v.set x b).set vf f, rfl, fun r => ?_⟩
  have hread : ((s.v.set x b).set vf f)[r] = if r = 15 then f else if r = x then b else s.v[r] :=
    s.reg_setRegFlag x r b f
  rw [hread, apply_ite BitVec.toNat, apply_ite BitVec.toNat, hb, hf]

/-! ## The instructions (R111 to R121) -/

/-- Settles O25: one write of `V[x]`, the addition modulo 256. -/
theorem loadAndAddByte : Obligations.LoadAndAddByte := fun x kk s =>
  ⟨decodeWord_ofNat rfl (encode_ldByte_toNat x kk), decodeWord_ofNat rfl (encode_addByte_toNat x kk),
    ⟨_, rfl, regWritten_setReg s x rfl⟩, ⟨_, rfl, regWritten_setReg s x (BitVec.toNat_add ..)⟩⟩

/-- Settles O26: one write of `V[x]`, bit by bit on the numbers of the operands. -/
theorem moveAndLogic : Obligations.MoveAndLogic := fun x _ s =>
  ⟨decodeWord_group8 0x0 rfl rfl, decodeWord_group8 0x1 rfl rfl, decodeWord_group8 0x2 rfl rfl,
    decodeWord_group8 0x3 rfl rfl,
    ⟨_, rfl, regWritten_setReg s x rfl⟩, ⟨_, rfl, regWritten_setReg s x (BitVec.toNat_or ..)⟩,
    ⟨_, rfl, regWritten_setReg s x (BitVec.toNat_and ..)⟩, ⟨_, rfl, regWritten_setReg s x (BitVec.toNat_xor ..)⟩⟩

/-- Settles O27: the sum modulo 256, then the carry. -/
theorem addSetsCarry : Obligations.AddSetsCarry := fun x _ s =>
  ⟨decodeWord_group8 0x4 rfl rfl, _, rfl, regFlagWritten_setRegFlag s x (BitVec.toNat_add ..) (carryFlag_toNat ..)⟩

/-- Settles O28: `SUBN` is `SUB` with its operands exchanged. -/
theorem subtractSetsNoBorrow : Obligations.SubtractSetsNoBorrow := fun x _ s =>
  ⟨decodeWord_group8 0x5 rfl rfl, decodeWord_group8 0x7 rfl rfl,
    ⟨_, rfl, regFlagWritten_setRegFlag s x (toNat_sub_byte ..) (noBorrowFlag_toNat ..)⟩,
    ⟨_, rfl, regFlagWritten_setRegFlag s x (toNat_sub_byte ..) (noBorrowFlag_toNat ..)⟩⟩

/-- Settles O29: `y` enters neither the result nor the flag. -/
theorem shiftsDropOneBit : Obligations.ShiftsDropOneBit := fun x _ s =>
  ⟨decodeWord_group8 0x6 rfl rfl, decodeWord_group8 0xE rfl rfl,
    ⟨_, rfl, regFlagWritten_setRegFlag s x (toNat_shiftRight_one_byte _) (lowBitFlag_toNat _)⟩,
    ⟨_, rfl, regFlagWritten_setRegFlag s x (toNat_shiftLeft_one_byte _) (highBitFlag_toNat _)⟩⟩

end Sys2Proof.Machine

/-! Memory and the address register (42_memory_address.md R131 to R136): the words of group F, the bound check that fails,
the bytes of a store, and the instructions. -/

namespace Sys2Proof.Machine

/-! ## The words (30_encoding.md R79) -/

theorem encode_ldI_toNat (nnn : Addr12) : (encode (.ldI nnn)).toNat = 0xA000 + nnn.toNat :=
  wordNnn_toNat 0xA nnn

theorem encode_groupF_toNat {i : Instr} {x : RegIdx} (kk : Byte) (he : encode i = wordXkk 0xF#4 x kk) :
    (encode i).toNat = 0xF000 + kk.toNat + 256 * x.val := by
  have hgroup : (0xF#4).toNat = 15 := rfl
  rw [he, wordXkk_toNat, hgroup]; omega

/-- The decoder reads `Fxkk` as the instruction whose word is in group F with the sub-opcode `kk`. -/
theorem decodeWord_groupF {i : Instr} {x : RegIdx} (kk : Byte) (hi : i.wellFormed = true)
    (he : encode i = wordXkk 0xF#4 x kk) : decodeWord (BitVec.ofNat 16 (0xF000 + kk.toNat + 256 * x.val)) = .ok i :=
  decodeWord_ofNat hi (encode_groupF_toNat kk he)

/-! ## The bound check that fails (R130) -/

/-- An instruction that checks its span of addresses first enters `MemoryFault` where the check fails, whatever it would
have written. -/
theorem exec_faultEntered_of_span {i : Instr} {s t : State} {n w : Nat}
    (hexec : exec i s =
      if spanOk s.i.toNat n then .next t else raise .memoryFault (encode i) (lowestBad s.i.toNat) s)
    (hw : (encode i).toNat = w) (hbad : spanOk s.i.toNat n = false) :
    ∃ t, exec i s = .next t ∧ FaultEntered s .memoryFault w (max s.i.toNat 0x1000) t :=
  ⟨_, hexec.trans (if_neg (Bool.eq_false_iff.mp hbad)), faultEntered_faultEntry s _ hw (lowestBad_toNat s.i)⟩

theorem spanOk_eq_false_of_last {a k : Nat} (h : a + k > 0xFFF) : spanOk a (k + 1) = false :=
  (spanOk_eq_false _ _).mpr ⟨k.succ_ne_zero, Nat.succ_lt_succ h⟩

/-! ## Writes of `I` -/

theorem State.next_setI (s : State) {w : Word} {n : Nat} (h : w.toNat = n) :
    (s.setI w).next = { s with i := BitVec.ofNat 16 n, pc := s.pc + 2#16 } := by
  rw [ofNat_eq_of_toNat_eq h]; rfl

/-- A byte added to `I` wraps at 65536 (R132). -/
theorem add_byteOffset_toNat (w : Word) (b : Byte) : (w + byteOffset b).toNat = (w.toNat + b.toNat) % 65536 := by
  rw [BitVec.toNat_add, byteOffset_toNat]

/-- Settles O31: each is one write of `I` and the advance of `PC`, with the operand named by its number. -/
theorem addressRegisterWrites : Obligations.AddressRegisterWrites := fun nnn x s =>
  ⟨decodeWord_ofNat rfl (encode_ldI_toNat nnn), decodeWord_groupF 0x1E rfl rfl, decodeWord_groupF 0x29 rfl rfl,
    congrArg Host.Outcome.next (s.next_setI (addrOperand_toNat nnn)),
    congrArg Host.Outcome.next (s.next_setI (add_byteOffset_toNat s.i s.v[x])),
    congrArg Host.Outcome.next (s.next_setI (glyphAddr_toNat s.v[x]))⟩

/-! ## The bytes of a store -/

/-- A store leaves every address outside its span alone. -/
theorem Memory.read_writeBytes_outside (m : Memory) {a c : Nat} {bs : List Byte} (h : c < a ∨ a + bs.length ≤ c) :
    (m.writeBytes a bs).read c = m.read c :=
  (Memory.read_writeBytes bs m a c).trans (dif_neg (by omega))

/-- The digits fit in their bytes: a byte is less than 256 (R134). -/
theorem bcdDigits_map_toNat (b : Byte) :
    (bcdDigits b).map BitVec.toNat = [b.toNat / 100, b.toNat / 10 % 10, b.toNat % 10] := by
  have hb := b.isLt
  simp only [bcdDigits, List.map_cons, List.map_nil, BitVec.toNat_ofNat, List.cons.injEq, and_true]
  omega

/-- The digit store puts digit `k` at its base plus `k` (R134). -/
theorem Memory.read_writeBytes_bcdDigits (m : Memory) (a : Nat) (b : Byte) (k : Fin 3) :
    ((m.writeBytes a (bcdDigits b)).read (a + k)).toNat = [b.toNat / 100, b.toNat / 10 % 10, b.toNat % 10][k] := by
  rw [Memory.read_writeBytes_add m a k (bcdDigits b) k.isLt]
  simp only [← bcdDigits_map_toNat]
  exact (List.getElem_map BitVec.toNat).symm

theorem exec_ldB {x : RegIdx} {s : State} (h : s.i.toNat + 2 ≤ 0xFFF) :
    exec (.ldB x) s = .next (s.setMem (s.mem.writeBytes s.i.toNat (bcdDigits (s.reg x)))).next :=
  if_pos ((spanOk_iff _ _).mpr (.inr (Nat.succ_le_succ h)))

/-! ## The transfers (R134 to R136) -/

/-- Settles O32: the store of the three digits, or the failed check. -/
theorem bcdStoresDigits : Obligations.BcdStoresDigits := by
  refine fun x s => ⟨decodeWord_groupF 0x33 rfl rfl, fun hfit => ?_, fun hbad =>
    exec_faultEntered_of_span rfl (encode_groupF_toNat 0x33 rfl) (spanOk_eq_false_of_last hbad)⟩
  have hdigit := Memory.read_writeBytes_bcdDigits s.mem s.i.toNat s.v[x]
  exact ⟨_, exec_ldB hfit, hdigit 0, hdigit 1, hdigit 2, fun _ ha => Memory.read_writeBytes_outside s.mem ha⟩

/-- Settles O33: the store of the register block, or the failed check. -/
theorem blockStore : Obligations.BlockStore := by
  refine fun x s => ⟨decodeWord_groupF 0x55 rfl rfl, fun hfit => ?_, fun hbad =>
    exec_faultEntered_of_span rfl (encode_groupF_toNat 0x55 rfl) (spanOk_eq_false_of_last hbad)⟩
  refine ⟨_, exec_ldMemVx hfit, fun k hk => Memory.read_writeBytes_regBlock s.mem s.i.toNat s.v hk, fun a ha =>
    Memory.read_writeBytes_outside s.mem ?_⟩
  rw [regBlock_length]; omega

/-- Settles O34: the load of the register block, or the failed check. -/
theorem blockLoad : Obligations.BlockLoad := fun x s =>
  ⟨decodeWord_groupF 0x65 rfl rfl,
    fun hfit => ⟨_, exec_ldVxMem hfit, fun r => loadRegBlock_getElem s.v s.mem s.i.toNat x r⟩,
    fun hbad => exec_faultEntered_of_span rfl (encode_groupF_toNat 0x65 rfl) (spanOk_eq_false_of_last hbad)⟩

end Sys2Proof.Machine

/-! The timer moves (43_timer_instructions.md R141 to R143). -/

namespace Sys2Proof.Machine

/-- Settles O37: the read of `DT` is one write of `V[x]`; each load writes its own counter and advances `PC`. -/
theorem timerMoves : Obligations.TimerMoves := fun x s =>
  ⟨decodeWord_groupF 0x07 rfl rfl, decodeWord_groupF 0x15 rfl rfl, decodeWord_groupF 0x18 rfl rfl,
    ⟨_, rfl, regWritten_setReg s x rfl⟩, rfl, rfl⟩

end Sys2Proof.Machine

/-! Keys (44_key_instructions.md R151 to R153): the skips, the two ends of `LD Vx, K`, and the wait for a key under
grants and timer ticks. -/

namespace Sys2Proof.Machine

/-! ## The skips (R151, R152) -/

/-- The decoder reads `Exkk` as the instruction whose word is in group E with the sub-opcode `kk` (R78). -/
theorem decodeWord_groupE {i : Instr} {x : RegIdx} (kk : Byte) (hi : i.wellFormed = true)
    (he : encode i = wordXkk 0xE#4 x kk) : decodeWord (BitVec.ofNat 16 (0xE000 + kk.toNat + 256 * x.val)) = .ok i := by
  refine decodeWord_ofNat hi ?_
  have hgroup : (0xE#4).toNat = 14 := rfl
  rw [he, wordXkk_toNat, hgroup]; omega

theorem keyIndex_eq_of_val {b : Byte} {k : Fin 16} (h : k.val = b.toNat % 16) : keyIndex b = k :=
  Fin.ext ((keyIndex_val b).trans h.symm)

/-- Settles O42: both skips test the key that the low nibble of `V[x]` names. -/
theorem skipOnKey : Obligations.SkipOnKey := by
  intro x k s hk
  have hkey : s.keyDown (keyIndex (s.reg x)) = s.key[k] := congrArg s.keyDown (keyIndex_eq_of_val hk)
  refine ⟨decodeWord_groupE 0x9E rfl rfl, decodeWord_groupE 0xA1 rfl rfl, ⟨_, rfl, skipped_skipIf s ?_⟩,
    ⟨_, rfl, skipped_skipIf s ?_⟩⟩
  · rw [hkey]
  · rw [hkey, Bool.not_eq_true']

/-! ## The two ends of `LD Vx, K` (R153) -/

section KeyWait
variable (x : RegIdx) {s : State}

theorem exec_ldVxK_of_lowest {k : Fin 16} (hk : s.key[k] = true) (hlow : ∀ j : Fin 16, j < k → s.key[j] = false) :
    exec (.ldVxK x) s = .next (s.setReg x (BitVec.ofNat 8 k.val)).next := by
  have hfound : s.lowestKey = some k := (s.lowestKey_some k).mpr ⟨hk, hlow⟩
  simp only [exec, execLdVxK, hfound]

theorem exec_ldVxK_of_no_key (h : ∀ k : Fin 16, s.key[k] = false) : exec (.ldVxK x) s = .next s := by
  have hnone : s.lowestKey = none := s.lowestKey_none.mpr h
  simp only [exec, execLdVxK, hnone]

end KeyWait

theorem ofNat_key_toNat (k : Fin 16) : (BitVec.ofNat 8 k.val).toNat = k.val :=
  (BitVec.toNat_ofNat ..).trans (Nat.mod_eq_of_lt (by omega))

/-- Settles O43: the two ends, the first a write of one register. -/
theorem keyWait : Obligations.KeyWait := fun x s =>
  ⟨decodeWord_groupF 0x0A rfl rfl,
    fun k hk hlow => ⟨_, exec_ldVxK_of_lowest x hk hlow, regWritten_setReg s x (ofNat_key_toNat k)⟩,
    exec_ldVxK_of_no_key x⟩

/-! ## The wait (R153, R185, R186, R193) -/

theorem countDown_iterate_toNat (n : Nat) (b : Byte) : (countDown^[n] b).toNat = b.toNat - n := by
  induction n generalizing b with
  | zero => rfl
  | succ n ih => rw [Function.iterate_succ_apply, ih, countDown_toNat]; omega

/-- The core runs and its next instruction is `LD Vx, K`, with no key down. -/
structure Waiting (x : RegIdx) (s : State) : Prop where
  running : s.run = .running
  fetchable : s.pc.toNat ≤ 0xFFE
  word : decodeWord (wordAtPc s) = .ok (.ldVxK x)
  noKey : ∀ j : Fin 16, s.key[j] = false

/-- The state after a wait under the given grants: each counter is lowered by its own ticks. -/
def State.waited (s : State) (grants rest : List Event) : State :=
  { s with dt := countDown^[grants.count .dtTick] s.dt, st := countDown^[grants.count .stTick] s.st, schedule := rest }

theorem State.waited_nil {s : State} {rest : List Event} (h : s.schedule = rest) : s.waited [] rest = s := by
  subst h; rfl

/-- A wait under a list of grants is a wait under its first, then under the others. -/
theorem State.waited_cons (s : State) (e : Event) (grants mid rest : List Event) :
    (s.waited [e] mid).waited grants rest = s.waited (e :: grants) rest := by
  have hcount (a : Event) : (e :: grants).count a = grants.count a + [e].count a := by
    rw [← List.singleton_append, List.count_append, Nat.add_comm]
  simp only [State.waited, hcount, Function.iterate_add_apply]

section Wait
variable {x : RegIdx} {s : State}

theorem Waiting.waited (h : Waiting x s) (grants rest : List Event) : Waiting x (s.waited grants rest) :=
  ⟨h.running, h.fetchable, h.word, h.noKey⟩

theorem Waiting.step_eq {e : Event} {rest : List Event} (h : Waiting x s) (he : e = .cpu ∨ e = .dtTick ∨ e = .stTick)
    (hs : s.schedule = e :: rest) : step s = .next (s.waited [e] rest) := by
  rw [step_cons s e rest hs]
  rcases he with rfl | rfl | rfl
  · exact (cpuStep_eq_exec (s := { s with schedule := rest }) h.running h.fetchable h.word).trans
      (exec_ldVxK_of_no_key x h.noKey)
  · exact congrArg Host.Outcome.next (dtTick_running { s with schedule := rest } h.running)
  · exact congrArg Host.Outcome.next (stTick_running { s with schedule := rest } h.running)

/-- Grants and ticks leave the wait as it is, however many steps follow them. -/
theorem Waiting.run_add (n : Nat) {grants rest : List Event} (h : Waiting x s)
    (hg : ∀ e ∈ grants, e = .cpu ∨ e = .dtTick ∨ e = .stTick) (hs : s.schedule = grants ++ rest) :
    core.run (grants.length + n) s = core.run n (s.waited grants rest) := by
  induction grants generalizing s with
  | nil => rw [State.waited_nil (rest := rest) hs, List.length_nil, Nat.zero_add]
  | cons e grants ih =>
    obtain ⟨he, hgrants⟩ := List.forall_mem_cons.mp hg
    have hfirst := h.step_eq (rest := grants ++ rest) he hs
    have hothers := ih (h.waited [e] (grants ++ rest)) hgrants rfl
    rw [State.waited_cons] at hothers
    rw [List.length_cons, Nat.add_right_comm, core_run_next _ _ _ hfirst, hothers]

theorem getElem_set_key (key : Vector Bool 16) (k j : Fin 16) (b : Bool) :
    (key.set k b)[j] = if j = k then b else key[j] := by
  simp only [Fin.getElem_fin, Vector.getElem_set, Fin.ext_iff, eq_comm]

/-- With no other key down, the pressed key is the only one down. -/
theorem Waiting.key_press (h : Waiting x s) (k j : Fin 16) : (s.key.set k true)[j] = decide (j = k) := by
  rw [getElem_set_key, h.noKey, Bool.if_false_right, Bool.and_true]

/-- The state after a key press, with the rest of the schedule. -/
def State.pressed (s : State) (k : Fin 16) (rest : List Event) : State :=
  { s with key := s.key.set k true, schedule := rest }

/-- A key press and a grant end the wait with that key in `V[x]`. -/
theorem Waiting.run_key_press {k : Fin 16} {rest : List Event} (h : Waiting x s)
    (hs : s.schedule = .setKey k true :: .cpu :: rest) :
    core.run 2 s = .next ((s.pressed k rest).setReg x (BitVec.ofNat 8 k.val)).next := by
  have hdown : (s.pressed k rest).key[k] = true := (h.key_press k k).trans (decide_eq_true rfl)
  have hlow (j : Fin 16) (hj : j < k) : (s.pressed k rest).key[j] = false :=
    (h.key_press k j).trans (decide_eq_false hj.ne)
  have hpress : step s = .next (s.pressed k (.cpu :: rest)) := step_cons s _ _ hs
  have hgrant : step (s.pressed k (.cpu :: rest)) = cpuStep (s.pressed k rest) :=
    step_cons (s.pressed k (.cpu :: rest)) .cpu rest rfl
  have hload := (cpuStep_eq_exec (s := s.pressed k rest) h.running h.fetchable h.word).trans
    (exec_ldVxK_of_lowest x hdown hlow)
  rw [core_run_next 1 _ _ hpress, core_run_next 0 _ _ (hgrant.trans hload), core_run_zero]

end Wait

/-- Settles O44: the wait stays a wait under the grants and ticks, and the pressed key is the only one down when the
next grant reads the latch. -/
theorem keyWaitEndsWithKey : Obligations.KeyWaitEndsWithKey := by
  intro s x k grants rest hrun hpc hword hkey hgrants hs
  have hwait : Waiting x s := ⟨hrun, hpc, hword, hkey⟩
  have hstill := hwait.waited grants (.setKey k true :: .cpu :: rest)
  exact ⟨_, _, hwait.run_add 0 hgrants hs, (hwait.run_add 2 hgrants hs).trans (hstill.run_key_press rfl), rfl,
    countDown_iterate_toNat _ s.dt, countDown_iterate_toNat _ s.st, hwait.key_press k,
    regWritten_setReg _ x (ofNat_key_toNat k)⟩

end Sys2Proof.Machine

/-! Framebuffer (45_draw.md R161 to R163): the clear, the pixels and the collision of one draw, and a draw that follows a
draw of the same sprite. -/

namespace Sys2Proof.Machine

/-- Settles O45: the blank grid and the advance of `PC`. -/
theorem clearScreen : Obligations.ClearScreen := fun _ =>
  ⟨decodeEncodeRoundTrip .cls rfl, Grid.blank, rfl, Grid.pixel_blank⟩

/-! ## The word, the bound and the flag -/

theorem encode_drw_toNat (x y n : Fin 16) :
    (encode (.drw x y n)).toNat = 0xD000 + 256 * x.val + 16 * y.val + n.val := by
  have hn : (nibble n).toNat = n.val := nibble_toNat n
  rw [Nat.mul_comm 256, Nat.mul_comm 16, ← hn]; exact wordXyn_toNat 0xD x y (nibble n)

/-- The check of a sprite's bytes by the address of its last byte; a sprite of no row passes it (R162). -/
theorem spanOk_iff_last (a n : Nat) : spanOk a n = true ↔ n = 0 ∨ a + n - 1 ≤ 0xFFF := by
  rw [spanOk_iff]; omega

theorem flagByte_eq_one_or_zero (c : Bool) : flagByte c = 1 ∨ flagByte c = 0 := by
  cases c with
  | false => exact .inr rfl
  | true => exact .inl rfl

theorem flagByte_eq_one_iff (c : Bool) : flagByte c = 1 ↔ c = true := by
  cases c <;> decide

/-! ## One draw -/

section Draw
variable (s : State) (x y n : Fin 16)

/-- Is the pixel under a 1 bit of the sprite that `DRW Vx, Vy, n` draws? -/
def State.underSprite (yy : Fin 32) (xx : Fin 64) : Bool :=
  spriteBit s.mem s.i.toNat n.val ((s.v[x]).toNat % 64) ((s.v[y]).toNat % 32) yy xx

/-- The grid and the collision that `DRW Vx, Vy, n` computes. -/
def State.blended : Blend :=
  blendRows ⟨s.fb, false⟩ (row (s.reg y)) (column (s.reg x)) (s.mem.readBytes s.i.toNat n.val)

/-- The state after `DRW Vx, Vy, n` whose sprite fits in memory. -/
def State.afterDrw : State :=
  ((s.setFb (s.blended x y n).grid).setReg vf (flagByte (s.blended x y n).collision)).next

theorem exec_drw (h : n.val = 0 ∨ s.i.toNat + n.val - 1 ≤ 0xFFF) :
    exec (.drw x y n) s = .next (s.afterDrw x y n) :=
  if_pos ((spanOk_iff_last _ _).mpr h)

theorem afterDrw_pixel (yy : Fin 32) (xx : Fin 64) :
    Grid.pixel (s.afterDrw x y n).fb yy xx = (Grid.pixel s.fb yy xx ^^ s.underSprite x y n yy xx) :=
  blendRows_pixel _ s.mem s.i.toNat n.val _ _ (by omega) (Nat.mod_lt _ (by decide)) (Nat.mod_lt _ (by decide)) yy xx

theorem blended_collision : (s.blended x y n).collision = true ↔
    ∃ yy xx, Grid.pixel s.fb yy xx = true ∧ s.underSprite x y n yy xx = true := by
  have hblend := blendRows_collision ⟨s.fb, false⟩ s.mem s.i.toNat n.val (column (s.reg x)) (row (s.reg y)) (by omega)
    (Nat.mod_lt _ (by decide)) (Nat.mod_lt _ (by decide))
  refine hblend.trans ((or_iff_right Bool.false_ne_true).trans ?_)
  exact exists_congr fun yy => exists_congr fun xx => and_comm

theorem afterDrw_vf : (s.afterDrw x y n).v[15] = flagByte (s.blended x y n).collision :=
  Vector.getElem_set_self ..

theorem afterDrw_vf_eq_one_or_zero : (s.afterDrw x y n).v[15] = 1 ∨ (s.afterDrw x y n).v[15] = 0 := by
  rw [afterDrw_vf]; exact flagByte_eq_one_or_zero _

theorem afterDrw_vf_eq_one_iff : (s.afterDrw x y n).v[15] = 1 ↔
    ∃ yy xx, Grid.pixel s.fb yy xx = true ∧ s.underSprite x y n yy xx = true := by
  rw [afterDrw_vf, flagByte_eq_one_iff, blended_collision]

end Draw

/-- Settles O46: each pixel is toggled once, and the flag is the collision; or the check of the sprite's bytes fails. -/
theorem drawTogglesSprite : Obligations.DrawTogglesSprite := by
  refine fun x y n s => ⟨decodeWord_ofNat rfl (encode_drw_toNat x y n), fun hfit => ?_, fun hn hbad => ?_⟩
  · exact ⟨_, _, exec_drw s x y n hfit, afterDrw_pixel s x y n, fun r hr => getElem_set_ne_reg s.v _ hr,
      afterDrw_vf_eq_one_or_zero s x y n, afterDrw_vf_eq_one_iff s x y n⟩
  · exact exec_faultEntered_of_span rfl (encode_drw_toNat x y n) ((spanOk_eq_false _ _).mpr (by omega))

/-! ## A draw after a draw (R163) -/

/-- A draw changes neither memory nor `I`, so with the origin kept the next draw is of the same sprite. -/
theorem underSprite_afterDrw {s : State} {x y n : Fin 16}
    (hx : ((s.afterDrw x y n).v[x]).toNat % 64 = (s.v[x]).toNat % 64)
    (hy : ((s.afterDrw x y n).v[y]).toNat % 32 = (s.v[y]).toNat % 32) :
    (s.afterDrw x y n).underSprite x y n = s.underSprite x y n := by
  funext yy xx
  rw [State.underSprite, hx, hy]; rfl

section Twice
variable {s : State} {x y n : Fin 16} (hsprite : (s.afterDrw x y n).underSprite x y n = s.underSprite x y n)
include hsprite

/-- Toggling the same pixels twice restores each. -/
theorem afterDrw_afterDrw_fb : ((s.afterDrw x y n).afterDrw x y n).fb = s.fb :=
  Grid.ext_pixel fun yy xx => by
    rw [afterDrw_pixel, afterDrw_pixel, hsprite, Bool.xor_assoc, Bool.xor_self, Bool.xor_false]

/-- A pixel under a 1 bit is lit for the second draw where it was dark before the first. -/
theorem afterDrw_afterDrw_vf_eq_one_iff : ((s.afterDrw x y n).afterDrw x y n).v[15] = 1 ↔
    ∃ yy xx, Grid.pixel s.fb yy xx = false ∧ s.underSprite x y n yy xx = true := by
  rw [afterDrw_vf_eq_one_iff, hsprite]
  refine exists_congr fun yy => exists_congr fun xx => and_congr_left fun hbit => ?_
  rw [afterDrw_pixel, hbit, Bool.xor_true, Bool.not_eq_true']

end Twice

/-- Settles O47: the second draw is of the same sprite, over the pixels the first left. -/
theorem drawTwiceRestores : Obligations.DrawTwiceRestores := by
  intro x y n s t hfit hdraw hx hy
  obtain rfl : s.afterDrw x y n = t := Host.Outcome.next.inj ((exec_drw s x y n hfit).symm.trans hdraw)
  have hsprite := underSprite_afterDrw hx hy
  exact ⟨_, exec_drw _ x y n hfit, afterDrw_afterDrw_fb hsprite, afterDrw_vf_eq_one_or_zero _ x y n,
    afterDrw_afterDrw_vf_eq_one_iff hsprite⟩

end Sys2Proof.Machine

/-! Random (46_random.md R170, R171): the byte loaded, and the draw from the port or from the free values. -/

namespace Sys2Proof.Machine

theorem encode_rnd_toNat (x : RegIdx) (kk : Byte) :
    (encode (.rnd x kk)).toNat = 0xC000 + 256 * x.val + kk.toNat := by
  rw [Nat.mul_comm]; exact wordXkk_toNat 0xC x kk

theorem rndResult_toNat (masked : Bool) (draw kk : Byte) :
    (rndResult masked draw kk).toNat = if masked then (draw &&& kk).toNat else draw.toNat :=
  apply_ite BitVec.toNat ..

/-- With no byte supplied the draw is a free value, and the number of free draws goes up by one. -/
theorem exec_rnd_of_nil {s : State} (x : RegIdx) (kk : Byte) (h : s.rndIn = []) :
    exec (.rnd x kk) s =
      .next (({ s with draws := s.draws + 1 } : State).setReg x (rndResult s.cfg.rndMasked s.draw kk)).next := by
  rw [← s.drawn_nil h]; rfl

/-- Settles O48: one write of `V[x]`, after the port's byte is taken off the inputs or a free draw is counted. -/
theorem randomByte : Obligations.RandomByte := by
  refine fun x kk s => ⟨decodeWord_ofNat rfl (encode_rnd_toNat x kk), fun r l => ?_, fun hnone => ?_⟩
  · exact ⟨_, rfl, regWritten_setReg { s with rndIn := l } x (rndResult_toNat s.cfg.rndMasked r kk)⟩
  · exact ⟨s.draw, s.draws + 1, _, exec_rnd_of_nil x kk hnone,
      regWritten_setReg { s with draws := s.draws + 1 } x (rndResult_toNat s.cfg.rndMasked s.draw kk)⟩

end Sys2Proof.Machine

/-! The instruction cycle (47_agents_and_arbiter.md R180 to R184, R198): the fetch, the decoded instruction, and that every
event answers a next state. -/

namespace Sys2Proof.Machine

/-! ## Fetch and the decoded instruction (R180 to R182) -/

theorem wordOfBytes_toNat (hi lo : Byte) : (wordOfBytes hi lo).toNat = 256 * hi.toNat + lo.toNat := by
  rw [wordOfBytes, toNat_append_eq, Nat.mul_comm]; rfl

/-- Settles O8: each place of `PC` has its own end of the fetch, and the failed fetch is the cycle's fault. -/
theorem fetchChecksBothBytes : Obligations.FetchChecksBothBytes := by
  refine fun s => ⟨fun hpc => ?_, fetch_edge s, fun hpc => ⟨_, fetch_ok s hpc, wordOfBytes_toNat _ _⟩,
    cpuStep_faultEntered_of_fetch⟩
  rw [fetch_beyond s hpc, BitVec.ofNat_toNat]

/-- Settles O7: the step delivers the head of the schedule, and a grant to the `CPU` executes the word at `PC`. -/
theorem stepRunsDecodedInstruction : Obligations.StepRunsDecodedInstruction := by
  refine fun s => ⟨fun i hrun hpc hdec => ⟨fun hs => ?_, fun rest hs => ?_⟩, step_nil s, step_cons s⟩
  · exact (step_nil s hs).trans (cpuStep_eq_exec hrun hpc hdec)
  · exact (step_cons s _ _ hs).trans (cpuStep_eq_exec (s := { s with schedule := rest }) hrun hpc hdec)

/-! ## Every event answers (R184) -/

theorem cpuStep_answers (s : State) : ∃ t, cpuStep s = .next t := by
  by_cases hrun : s.run = .running
  · rw [cpuStep_running s hrun]
    rcases cpuCycle_cases s with ⟨_, -, e⟩ | ⟨_, _, -, -, e⟩ | ⟨_, i, -, -, e⟩
    · exact ⟨_, e⟩
    · exact ⟨_, e⟩
    · rw [e]; exact exec_answers i s
  · exact ⟨s, cpuStep_frozen s hrun⟩

theorem deliver_answers (e : Event) (s : State) : ∃ t, deliver e s = .next t := by
  cases e with
  | cpu => exact cpuStep_answers s
  | dtTick | stTick | start | stop | setKey | snapshot | reset => exact ⟨_, rfl⟩

/-- Settles O9: a fault of the cycle is an entry, not a stop, and the other events' results are states. -/
theorem cpuIsNeverStuck : Obligations.CpuIsNeverStuck := by
  refine fun s => ⟨fun _ => cpuStep_answers s, cpuStep_frozen s, ?_⟩
  rw [step_eq_deliver]
  exact deliver_answers _ _

/-! ## A finished program (R198) -/

section Finished
variable {s : State}

/-- The word at the `PC` of a finished program is the jump to `PC` itself (R103). -/
theorem decodeWord_of_finished (h : Finished s) : decodeWord (wordAtPc s) = .ok (.jp (s.pc.setWidth 12)) := by
  obtain ⟨hpc, hword⟩ := h
  rw [← ofNat_eq_of_toNat_eq hword]
  refine decodeWord_ofNat rfl ((wordNnn_toNat 0x1 _).trans ?_)
  rw [BitVec.toNat_setWidth, Nat.mod_eq_of_lt (by omega)]; rfl

theorem exec_jp_self (hpc : s.pc.toNat ≤ 0xFFE) : exec (.jp (s.pc.setWidth 12)) s = .next s := by
  have htarget : addrOperand (s.pc.setWidth 12) = s.pc := BitVec.eq_of_toNat_eq <| by
    rw [addrOperand_toNat, BitVec.toNat_setWidth, Nat.mod_eq_of_lt (by omega)]
  exact congrArg (fun w => Host.Outcome.next (s.setPc w)) htarget

/-- A grant changes nothing once the program has finished, whether the core runs or not. -/
theorem cpuStep_of_finished (h : Finished s) : cpuStep s = .next s := by
  have ⟨hpc, _⟩ := h
  by_cases hrun : s.run = .running
  · exact (cpuStep_eq_exec hrun hpc (decodeWord_of_finished h)).trans (exec_jp_self hpc)
  · exact cpuStep_frozen s hrun

end Finished

/-- Settles O10: the jump's target is the `PC` it stands at. -/
theorem selfJumpIsFixedPoint : Obligations.SelfJumpIsFixedPoint := fun _ _ h => cpuStep_of_finished h

/-! ## A finished program under any event (R188, R198, R207) -/

theorem dtTick_eq_setDt (s : State) : ∃ b, dtTick s = s.setDt b := by
  by_cases hrun : s.run = .running
  · exact ⟨_, dtTick_running s hrun⟩
  · exact ⟨s.dt, dtTick_frozen s hrun⟩

theorem stTick_eq_setSt (s : State) : ∃ b, stTick s = s.setSt b := by
  by_cases hrun : s.run = .running
  · exact ⟨_, stTick_running s hrun⟩
  · exact ⟨s.st, stTick_frozen s hrun⟩

/-- A `start` or a `stop` moves between the run states that are not `FAULTED` (R190, R191). -/
theorem hostStart_eq_setRun {s : State} (hrun : s.run ≠ .faulted) :
    ∃ q b, q ≠ .faulted ∧ hostStart s = { s with run := q, cmdError := b } := by
  by_cases hidle : s.run = .idle
  · exact ⟨.running, _, nofun, hostStart_idle s hidle⟩
  · exact ⟨s.run, _, hrun, hostStart_refused s hidle⟩

theorem hostStop_eq_setRun {s : State} (hrun : s.run ≠ .faulted) :
    ∃ q b, q ≠ .faulted ∧ hostStop s = { s with run := q, cmdError := b } := by
  cases hq : s.run with
  | running => exact ⟨.stopped, _, nofun, hostStop_running s hq⟩
  | idle => exact ⟨s.run, _, hrun, hostStop_idle s hq⟩
  | stopped => exact ⟨s.run, _, hrun, hostStop_ended s (.inl hq)⟩
  | faulted => exact absurd hq hrun

/-- What any event but a reset can do to a finished program: it writes no memory, no `PC` and no fault record, and does
not enter `FAULTED`. -/
theorem deliver_of_finished {e : Event} {s : State} (he : ∀ image, e ≠ .reset image) (h : Finished s)
    (hrun : s.run ≠ .faulted) : ∃ dt st key q b, q ≠ .faulted ∧
      deliver e s = .next { s with dt := dt, st := st, key := key, run := q, cmdError := b } := by
  cases e with
  | cpu => exact ⟨_, _, _, _, _, hrun, cpuStep_of_finished h⟩
  | dtTick =>
    obtain ⟨b, hb⟩ := dtTick_eq_setDt s
    exact ⟨b, _, _, _, _, hrun, congrArg Host.Outcome.next hb⟩
  | stTick =>
    obtain ⟨b, hb⟩ := stTick_eq_setSt s
    exact ⟨_, b, _, _, _, hrun, congrArg Host.Outcome.next hb⟩
  | start =>
    obtain ⟨q, b, hq, hs⟩ := hostStart_eq_setRun hrun
    exact ⟨_, _, _, q, b, hq, congrArg Host.Outcome.next hs⟩
  | stop =>
    obtain ⟨q, b, hq, hs⟩ := hostStop_eq_setRun hrun
    exact ⟨_, _, _, q, b, hq, congrArg Host.Outcome.next hs⟩
  | setKey | snapshot => exact ⟨_, _, _, _, _, hrun, rfl⟩
  | reset image => exact absurd rfl (he image)

/-- The event a step delivers is a reset only where the schedule holds that reset. -/
theorem head_ne_reset {l : List Event} (h : ∀ image, Event.reset image ∉ l) (image : List Byte) :
    l.head?.getD .cpu ≠ .reset image := by
  cases l with
  | nil => nofun
  | cons e rest => rintro rfl; exact h image List.mem_cons_self

/-- Settles O11: every step of a finished program leaves it finished and out of `FAULTED`, with the rest of the schedule. -/
theorem finishedProgramStaysSafe : Obligations.FinishedProgramStaysSafe := by
  intro k
  induction k with
  | zero => exact fun _ hfault _ _ _ => hfault
  | succ k ih =>
    intro s hfault hrun hfin hreset
    obtain ⟨dt, st, key, q, b, hq, hstep⟩ :=
      deliver_of_finished (s := { s with schedule := s.schedule.tail }) (head_ne_reset hreset) hfin hrun
    rw [← step_eq_deliver] at hstep
    exact ⟨hfault, _, hstep, ih _ hfault hq hfin fun image hmem => hreset image (List.mem_of_mem_tail hmem)⟩

end Sys2Proof.Machine

/-! The timer engines (47_agents_and_arbiter.md R185 to R188): the ticks, and a delay-timer tick exchanged with an
instruction cycle. -/

namespace Sys2Proof.Machine

/-- Settles O38: a tick is one decrement of its own counter, or none in a core that does not run. -/
theorem timerTicks : Obligations.TimerTicks := fun s =>
  ⟨fun hrun => ⟨_, countDown_toNat s.dt, congrArg Host.Outcome.next (dtTick_running s hrun)⟩,
    fun hrun => ⟨_, countDown_toNat s.st, congrArg Host.Outcome.next (stTick_running s hrun)⟩,
    fun hrun => ⟨congrArg Host.Outcome.next (dtTick_frozen s hrun), congrArg Host.Outcome.next (stTick_frozen s hrun)⟩⟩

/-! ## Instructions that do not touch `DT` -/

section CarriesDt
variable (b : Byte)

/-- The instruction neither reads nor writes `DT`: another value of it is carried through to the next state. -/
def CarriesDt (i : Instr) (s : State) : Prop :=
  ∃ t, exec i s = .next t ∧ exec i (s.setDt b) = .next (t.setDt b)

theorem carriesDt_ret (s : State) : CarriesDt b .ret s := by
  rcases Fin.eq_zero_or_eq_succ s.sp with h | ⟨k, h⟩
  · exact ⟨_, exec_ret_zero h, exec_ret_zero (s := s.setDt b) h⟩
  · exact ⟨_, exec_ret_succ h, exec_ret_succ (s := s.setDt b) h⟩

theorem carriesDt_call (nnn : Addr12) (s : State) : CarriesDt b (.call nnn) s := by
  rcases Fin.eq_castSucc_or_eq_last s.sp with ⟨k, h⟩ | h
  · exact ⟨_, exec_call_castSucc nnn h, exec_call_castSucc (s := s.setDt b) nnn h⟩
  · exact ⟨_, exec_call_last nnn h, exec_call_last (s := s.setDt b) nnn h⟩

theorem carriesDt_ldVxK (x : RegIdx) (s : State) : CarriesDt b (.ldVxK x) s := by
  cases hk : s.lowestKey with
  | none =>
    have hnone := s.lowestKey_none.mp hk
    exact ⟨s, exec_ldVxK_of_no_key x hnone, exec_ldVxK_of_no_key (s := s.setDt b) x hnone⟩
  | some k =>
    obtain ⟨hdown, hlow⟩ := (s.lowestKey_some k).mp hk
    exact ⟨_, exec_ldVxK_of_lowest x hdown hlow, exec_ldVxK_of_lowest (s := s.setDt b) x hdown hlow⟩

theorem State.drawn_setDt (s : State) : (s.setDt b).drawn = s.drawn.setDt b := by
  cases h : s.rndIn with
  | nil => rw [s.drawn_nil h, (s.setDt b).drawn_nil h]; rfl
  | cons r l => rw [s.drawn_cons r l h, (s.setDt b).drawn_cons r l h]; rfl

theorem carriesDt_rnd (x : RegIdx) (kk : Byte) (s : State) : CarriesDt b (.rnd x kk) s := by
  refine ⟨_, rfl, ?_⟩
  simp only [exec, execRnd, State.drawn_setDt]; rfl

/-- An instruction that checks its span of addresses first carries `DT` through both branches. -/
theorem carriesDt_bounded {i : Instr} {s t f : State} {c : Bool} (h : exec i s = if c then .next t else .next f)
    (hb : exec i (s.setDt b) = if c then .next (t.setDt b) else .next (f.setDt b)) : CarriesDt b i s := by
  cases c with
  | true => exact ⟨t, h, hb⟩
  | false => exact ⟨f, h, hb⟩

theorem carriesDt {i : Instr} (hread : ∀ x, i ≠ .ldVxDt x) (hload : ∀ x, i ≠ .ldDtVx x) (s : State) :
    CarriesDt b i s := by
  cases i with
  | ldVxDt x => exact absurd rfl (hread x)
  | ldDtVx x => exact absurd rfl (hload x)
  | ret => exact carriesDt_ret b s
  | call nnn => exact carriesDt_call b nnn s
  | ldVxK x => exact carriesDt_ldVxK b x s
  | rnd x kk => exact carriesDt_rnd b x kk s
  | drw | ldB | ldMemVx | ldVxMem => exact carriesDt_bounded b rfl rfl
  | sys | cls | jp | seByte | sneByte | seReg | sneReg | ldByte | addByte | ldReg | orReg | andReg | xorReg | addReg
  | sub | shr | subn | shl | ldI | jpV0 | skp | sknp | ldStVx | addI | ldF => exact ⟨_, rfl, rfl⟩

end CarriesDt

/-! ## A tick and a cycle (R187, R188) -/

/-- A cycle that leaves the core running is the execution of the word at `PC`: fault entry would have stopped it. -/
theorem exec_of_cpuStep_running {s t : State} (hrun : s.run = .running) (h : cpuStep s = .next t)
    (ht : t.run = .running) : s.pc.toNat ≤ 0xFFE ∧ ∃ i, decodeWord (wordAtPc s) = .ok i ∧ exec i s = .next t := by
  rw [cpuStep_running s hrun] at h
  rcases cpuCycle_cases s with ⟨_, -, e⟩ | ⟨_, _, -, -, e⟩ | ⟨op, i, hop, hdec, e⟩
  · cases e.symm.trans h; cases ht
  · cases e.symm.trans h; cases ht
  · obtain ⟨hpc, rfl⟩ := fetch_ok_bound s op hop
    exact ⟨hpc, i, hdec, e.symm.trans h⟩

/-- Settles O41: the instruction carries the lowered `DT` through, and leaves the counter for the tick to lower. -/
theorem tickCommutesWithInstruction : Obligations.TickCommutesWithInstruction := by
  intro s t h hkept hdec
  by_cases hrun : s.run = .running
  · have ht : t.run = .running := hkept.trans hrun
    obtain ⟨hpc, i, hi, hexec⟩ := exec_of_cpuStep_running hrun h ht
    have hread : ∀ x, i ≠ .ldVxDt x := by rintro x rfl; exact (hdec x).1 hi
    have hload : ∀ x, i ≠ .ldDtVx x := by rintro x rfl; exact (hdec x).2 hi
    have hdt : t.dt = s.dt := (dt_of_execResult (execResult_of_exec hexec)).resolve_right fun ⟨x, hx, _⟩ => hload x hx
    obtain ⟨u, hu, htick⟩ := carriesDt (countDown s.dt) hread hload s
    obtain rfl : u = t := Host.Outcome.next.inj (hu.symm.trans hexec)
    rw [dtTick_running s hrun, dtTick_running u ht, hdt]
    exact (cpuStep_eq_exec (s := s.setDt (countDown s.dt)) hrun hpc hi).trans htick
  · rw [cpuStep_frozen s hrun] at h
    cases h
    rw [dtTick_frozen s hrun, cpuStep_frozen s hrun]

end Sys2Proof.Machine

/-! The host's operations (47_agents_and_arbiter.md R190 to R194). -/

namespace Sys2Proof.Machine

/-- No engine has a step in a core that does not run (R184 to R186, R192). -/
theorem engines_frozen {s : State} (h : s.run ≠ .running) :
    deliver .cpu s = .next s ∧ deliver .dtTick s = .next s ∧ deliver .stTick s = .next s :=
  ⟨cpuStep_frozen s h, congrArg Host.Outcome.next (dtTick_frozen s h), congrArg Host.Outcome.next (stTick_frozen s h)⟩

/-- Settles O50: one case of `start` and `stop` for each run state they tell apart. -/
theorem startAndStop : Obligations.StartAndStop := fun s =>
  ⟨fun h => ⟨_, congrArg Host.Outcome.next (hostStart_idle s h), rfl, rfl⟩,
    fun h => ⟨_, congrArg Host.Outcome.next (hostStart_refused s h), rfl, rfl⟩,
    fun h => ⟨_, congrArg Host.Outcome.next (hostStop_running s h), rfl, rfl, engines_frozen nofun⟩,
    fun h => ⟨_, congrArg Host.Outcome.next (hostStop_idle s h), rfl, rfl⟩,
    fun h => ⟨_, congrArg Host.Outcome.next (hostStop_ended s h), rfl, rfl⟩⟩

/-- Bit `64 * y + x` of the snapshot is the pixel in row `y` and column `x` (R194). -/
theorem fbOut_getLsbD (s : State) (y : Fin 32) (x : Fin 64) : (fbOut s).getLsbD (64 * y.val + x.val) = (s.fb[y])[x] := by
  have hlt : 64 * y.val + x.val < 2048 := by omega
  have hrow : (64 * y.val + x.val) / 64 = y.val := by omega
  have hcol : (64 * y.val + x.val) % 64 = x.val := by omega
  simp [fbOut, hlt, hrow, hcol]

/-- Settles O51: one write of the latch, and the bits of the snapshot. -/
theorem setKeyAndSnapshot : Obligations.SetKeyAndSnapshot := fun s id pressed =>
  ⟨⟨s.key.set id pressed, rfl, fun k => getElem_set_key s.key id k pressed⟩, rfl, fbOut_getLsbD s⟩

end Sys2Proof.Machine

/-! The clock arbiter (47_agents_and_arbiter.md R189): held requests, the grant of each cycle, and the whole trace. -/

namespace Sys2Proof.Machine

/-- The requests stand in the order of their ranks. -/
abbrev ByRank (l : List Event) : Prop := l.Pairwise (fun a b => a.rank ≤ b.rank)

/-! ## Held requests -/

theorem hold_eq_orderedInsert (e : Event) (l : List Event) :
    hold e l = l.orderedInsert (fun a b => a.rank < b.rank) e := by
  induction l with
  | nil => rfl
  | cons q qs ih => rw [hold, List.orderedInsert_cons, ih]

theorem hold_perm (e : Event) (l : List Event) : (hold e l).Perm (e :: l) := by
  rw [hold_eq_orderedInsert]; exact List.perm_orderedInsert _ e l

theorem hold_byRank (e : Event) {l : List Event} (h : ByRank l) : ByRank (hold e l) := by
  induction l with
  | nil => exact List.pairwise_singleton _ e
  | cons q qs ih =>
    obtain ⟨hq, hqs⟩ := List.pairwise_cons.mp h
    rw [hold]
    split
    · next hlt =>
      refine List.pairwise_cons.mpr ⟨fun a ha => ?_, h⟩
      rcases List.mem_cons.mp ha with rfl | ha
      · exact hlt.le
      · exact hlt.le.trans (hq a ha)
    · next hge =>
      refine List.pairwise_cons.mpr ⟨fun a ha => ?_, ih hqs⟩
      rcases List.mem_cons.mp ((hold_perm e qs).mem_iff.mp ha) with rfl | ha
      · exact Nat.not_lt.mp hge
      · exact hq a ha

theorem holdAll_perm (held arrivals : List Event) : (holdAll held arrivals).Perm (held ++ arrivals) := by
  induction arrivals generalizing held with
  | nil => rw [List.append_nil]; rfl
  | cons a as ih =>
    have hfirst : (hold a held ++ as).Perm (a :: held ++ as) := (hold_perm a held).append_right as
    exact (ih (hold a held)).trans (hfirst.trans List.perm_middle.symm)

theorem holdAll_byRank {held : List Event} (h : ByRank held) (arrivals : List Event) :
    ByRank (holdAll held arrivals) := by
  induction arrivals generalizing held with
  | nil => exact h
  | cons a as ih => exact ih (hold_byRank a h)

/-! ## Grants -/

section Grant
variable {held arrivals : List Event} (later : List (List Event))

theorem grantOrder_of_none (h : holdAll held arrivals = []) : grantOrder held (arrivals :: later) = grantOrder [] later := by
  rw [grantOrder, h]

theorem grantOrder_of_first {e : Event} {rest : List Event} (h : holdAll held arrivals = e :: rest) :
    grantOrder held (arrivals :: later) = e :: grantOrder rest later := by
  rw [grantOrder, h]

end Grant

theorem grantOrder_perm (held : List Event) (trace : List (List Event)) :
    (grantOrder held trace).Perm (held ++ trace.flatten) := by
  induction trace generalizing held with
  | nil => rw [List.flatten_nil, List.append_nil]; rfl
  | cons arrivals later ih =>
    have hall := (holdAll_perm held arrivals).append_right later.flatten
    rw [List.flatten_cons, ← List.append_assoc]
    refine List.Perm.trans ?_ hall
    cases h : holdAll held arrivals with
    | nil => rw [grantOrder_of_none later h]; exact ih []
    | cons e rest => rw [grantOrder_of_first later h]; exact (ih rest).cons e

/-- In a cycle with a request, one of the earliest rank is granted and the others stay held (R189). -/
theorem grantOrder_grants {held arrivals : List Event} (later : List (List Event)) (h : ByRank held)
    (hne : held ++ arrivals ≠ []) : ∃ e held', grantOrder held (arrivals :: later) = e :: grantOrder held' later ∧
      (e :: held').Perm (held ++ arrivals) ∧ ByRank (e :: held') := by
  have hperm := holdAll_perm held arrivals
  have hrank := holdAll_byRank h arrivals
  cases hall : holdAll held arrivals with
  | nil => rw [hall] at hperm; exact absurd hperm.nil_eq.symm hne
  | cons e rest =>
    rw [hall] at hperm hrank
    exact ⟨e, rest, grantOrder_of_first later hall, hperm, hrank⟩

theorem rank_domains (e : Event) : (e = .dtTick ∨ Event.rank .dtTick < e.rank) ∧
    (e = .dtTick ∨ e = .stTick ∨ Event.rank .stTick < e.rank) ∧ (e = .cpu ∨ e.rank < Event.rank .cpu) := by
  cases e <;> simp [Event.rank]

/-- Settles O52: a cycle holds its arrivals in the order of ranks and grants the first request held. -/
theorem arbiterLosesNoRequest : Obligations.ArbiterLosesNoRequest :=
  ⟨grantOrder_perm, fun _ _ later h hne => grantOrder_grants later h hne, fun _ => rfl, rank_domains⟩

end Sys2Proof.Machine

/-! Faults (60_exceptions.md R202 to R207): the execute-stage fault of each instruction, the record of each stage of the
cycle, and the frozen core. -/

namespace Sys2Proof.Machine

/-! ## The execute stage (R202, R203) -/

section ExecuteStage
variable {i : Instr} {s t : State} {r : FaultRecord}

theorem exec_of_executeFault_eq_some (h : executeFault (encode i) i s = some r) : exec i s = .next (s.faultEntry r) := by
  rcases ends_pcEffect i s with ⟨q, hq, he⟩ | ⟨hnone, -⟩
  · cases hq.symm.trans h; exact he
  · cases hnone.symm.trans h

/-- An instruction's result is fault entry with the record of R202's table, or keeps `RUN` and `FAULT`. -/
theorem faultEntry_or_keeps_of_execResult (h : ExecResult i s t) :
    (∃ r, executeFault (encode i) i s = some r ∧ t = s.faultEntry r) ∨ (t.run = s.run ∧ t.fault = s.fault) := by
  cases h with
  | fault r hr => exact .inl ⟨r, hr, rfl⟩
  | jump | regs | address | pop | push | delay | sound | memory | screen | random => exact .inr ⟨rfl, rfl⟩

/-- Settles O15: an instruction ends in the fault R202's table gives it, or in a form that keeps `RUN` and `FAULT`. -/
theorem executeStageFaults : Obligations.ExecuteStageFaults := by
  refine fun i s => ⟨fun r => exec_of_executeFault_eq_some, fun hnone => ?_⟩
  obtain ⟨t, ht, hres⟩ := exec_result i s
  refine ⟨t, ht, (faultEntry_or_keeps_of_execResult hres).resolve_left ?_⟩
  rintro ⟨r, hr, -⟩
  cases hnone.symm.trans hr

/-! ## The record of each stage (R203 to R205) -/

/-- The record holds what R203 says of a fault of the instruction at `PC`, by the stage that raised it: the fetch where the
two bytes at `PC` do not both exist, else decoding or execution. -/
def RecordOfStage (s : State) (r : FaultRecord) : Prop :=
  r.pc = s.pc ∧
  (0xFFE < s.pc.toNat → r.kind = .memoryFault ∧ r.opcode = 0 ∧ r.addr.toNat = max s.pc.toNat 0x1000) ∧
  (s.pc.toNat ≤ 0xFFE → r.opcode = wordAtPc s ∧
    ((r.kind = .memoryFault ∧ r.addr.toNat = max s.i.toNat 0x1000) ∨
      ((r.kind = .decodeError ∨ r.kind = .stackOverflow ∨ r.kind = .stackUnderflow) ∧ r.addr = 0)))

theorem recordOfStage_fetch {a : Addr17} (h : fetch s = .error a) : RecordOfStage s ⟨.memoryFault, 0, s.pc, a⟩ := by
  have hpc : 0xFFE < s.pc.toNat := by
    by_contra hle
    cases (fetch_ok s (by omega)).symm.trans h
  obtain ⟨b, hb, haddr⟩ := fetch_error s hpc
  cases hb.symm.trans h
  exact ⟨rfl, fun _ => ⟨rfl, rfl, haddr⟩, fun hle => by omega⟩

theorem recordOfStage_decode (hpc : s.pc.toNat ≤ 0xFFE) : RecordOfStage s ⟨.decodeError, wordAtPc s, s.pc, 0⟩ :=
  ⟨rfl, fun hgt => by omega, fun _ => ⟨rfl, .inr ⟨.inl rfl, rfl⟩⟩⟩

/-- Each row of R202's table fills the record as R203 says. -/
theorem recordOfStage_execute (hpc : s.pc.toNat ≤ 0xFFE) (h : executeFault (wordAtPc s) i s = some r) :
    RecordOfStage s r := by
  have hfetched : ¬0xFFE < s.pc.toNat := Nat.not_lt.mpr hpc
  cases i <;> simp only [executeFault, Option.ite_none_right_eq_some, Option.some.injEq, reduceCtorEq] at h
  case sys => subst h; exact recordOfStage_decode hpc
  case ret => obtain ⟨-, rfl⟩ := h; exact ⟨rfl, (absurd · hfetched), fun _ => ⟨rfl, .inr ⟨.inr (.inr rfl), rfl⟩⟩⟩
  case call => obtain ⟨-, rfl⟩ := h; exact ⟨rfl, (absurd · hfetched), fun _ => ⟨rfl, .inr ⟨.inr (.inl rfl), rfl⟩⟩⟩
  case drw | ldB | ldMemVx | ldVxMem =>
    obtain ⟨-, rfl⟩ := h
    exact ⟨rfl, (absurd · hfetched), fun _ => ⟨rfl, .inl ⟨rfl, lowestBad_toNat s.i⟩⟩⟩

/-- A cycle of a running core that ends in `FAULTED` is fault entry alone, with the record of the stage that raised. -/
theorem faultEntry_of_cpuStep_faulted (hrun : s.run = .running) (h : cpuStep s = .next t) (ht : t.run = .faulted) :
    ∃ r, RecordOfStage s r ∧ t = s.faultEntry r := by
  rw [cpuStep_running s hrun] at h
  rcases cpuCycle_cases s with ⟨a, hfetch, e⟩ | ⟨op, _, hop, -, e⟩ | ⟨op, i, hop, hdec, e⟩
  · cases e.symm.trans h
    exact ⟨_, recordOfStage_fetch hfetch, rfl⟩
  · obtain ⟨hpc, rfl⟩ := fetch_ok_bound s op hop
    cases e.symm.trans h
    exact ⟨_, recordOfStage_decode hpc, rfl⟩
  · obtain ⟨hpc, rfl⟩ := fetch_ok_bound s op hop
    rcases faultEntry_or_keeps_of_execResult (execResult_of_exec (e.symm.trans h)) with ⟨r, hr, rfl⟩ | ⟨hkept, -⟩
    · obtain ⟨hword, -⟩ := isWordOf_of_decodeWord hdec
      rw [hword] at hr
      exact ⟨r, recordOfStage_execute hpc hr, rfl⟩
    · rw [ht, hrun] at hkept; cases hkept

end ExecuteStage

theorem deliver_reset_tooLong {image : List Byte} (s : State) (h : 3584 < image.length) :
    deliver (.reset image) s = .next ((resetWith [] s).faultEntry loadErrorRecord) :=
  congrArg Host.Outcome.next (hostReset_tooLong image s h)

theorem deliver_reset_fits {image : List Byte} (s : State) (h : image.length ≤ 3584) :
    deliver (.reset image) s = .next (resetWith image s) :=
  congrArg Host.Outcome.next (hostReset_fits image s h)

/-- Settles O13: the cycle's fault entry with its stage's record, the engines frozen after it, and the load-error state. -/
theorem faultEntryIsPrecise : Obligations.FaultEntryIsPrecise := by
  refine ⟨fun s t hrun h ht => ?_, fun s image hlen => ⟨_, deliver_reset_tooLong s hlen, rfl, rfl⟩⟩
  obtain ⟨r, ⟨hpc, hfetch, hlater⟩, rfl⟩ := faultEntry_of_cpuStep_faulted hrun h ht
  exact ⟨rfl, hpc, hfetch, hlater, engines_frozen nofun⟩

/-! ## The way out of `FAULTED` (R207) -/

/-- What any event but a reset can do to a faulted core: write the latch, and answer a command. -/
theorem deliver_of_faulted {e : Event} {s : State} (he : ∀ image, e ≠ .reset image) (hrun : s.run = .faulted) :
    ∃ key b, deliver e s = .next { s with key := key, cmdError := b } := by
  obtain ⟨hcpu, hdt, hst⟩ := engines_frozen (s := s) (by simp [hrun])
  cases e with
  | cpu => exact ⟨_, _, hcpu⟩
  | dtTick => exact ⟨_, _, hdt⟩
  | stTick => exact ⟨_, _, hst⟩
  | start => exact ⟨_, _, congrArg Host.Outcome.next (hostStart_refused s (by simp [hrun]))⟩
  | stop => exact ⟨_, _, congrArg Host.Outcome.next (hostStop_ended s (.inr hrun))⟩
  | setKey | snapshot => exact ⟨_, _, rfl⟩
  | reset image => exact absurd rfl (he image)

/-- Settles O14: no other event writes more than the latch and `cmd_error`, and a reset that fits is `IDLE`. -/
theorem onlyResetLeavesFaulted : Obligations.OnlyResetLeavesFaulted := by
  refine fun s hrun => ⟨fun e he => ?_, fun image hlen => ⟨_, deliver_reset_fits s hlen, rfl, rfl⟩⟩
  obtain ⟨key, b, hd⟩ := deliver_of_faulted he hrun
  exact ⟨_, hd, rfl⟩

end Sys2Proof.Machine

/-! Reset with a program image (70_reset_and_hazards.md R230 to R233): the memory it leaves, the image that does not fit, and
the first instruction. -/

namespace Sys2Proof.Machine

/-! ## The memory reset leaves (R230) -/

section ResetMemory
variable (font : Vector Byte 80) {image : List Byte}

theorem read_resetMemory_image {k : Nat} (hk : k < image.length) :
    (resetMemory font image).read (0x200 + k) = image[k] :=
  Memory.read_writeBytes_add _ progBase k image hk

/-- Outside the image, memory is the font stored in the empty memory. -/
theorem read_resetMemory_outside {a : Nat} (h : a < 0x200 ∨ 0x200 + image.length ≤ a) :
    (resetMemory font image).read a = (Memory.writeBytes [] 0 font.toList).read a :=
  Memory.read_writeBytes_outside _ h

theorem read_resetMemory_font (k : Fin 80) : (resetMemory font image).read k.val = font[k] := by
  have hlen : k.val < font.toList.length := by simp
  have hread := Memory.read_writeBytes_add [] 0 k.val font.toList hlen
  rw [Nat.zero_add, Vector.getElem_toList] at hread
  exact (read_resetMemory_outside font (.inl (by omega))).trans hread

theorem read_resetMemory_zero {a : Nat} (hfont : 80 ≤ a) (himage : a < 0x200 ∨ 0x200 + image.length ≤ a) :
    (resetMemory font image).read a = 0 := by
  have hend : 0 + font.toList.length ≤ a := by simpa using hfont
  calc (resetMemory font image).read a
      = (Memory.writeBytes [] 0 font.toList).read a := read_resetMemory_outside font himage
    _ = Memory.read [] a := Memory.read_writeBytes_outside [] (.inr hend)
    _ = 0 := unlisted_zero hfont

end ResetMemory

/-- Settles O53: the fields are those of `State.reset`, and the memory is read range by range. -/
theorem resetLoadsImage : Obligations.ResetLoadsImage := by
  intro s image
  by_cases hlen : image.length ≤ 3584
  · obtain ⟨hpc, hi, hsp, hdt, hst, hv, hslots, hfb, hrun, hfault, -⟩ := resetStateValues
    refine ⟨_, deliver_reset_fits s hlen, fun _ => ?_, fun hlong => by omega⟩
    refine ⟨hv, hi, hpc, hsp, fun k => (hslots k).1, hdt, hst, hfb, fun k => (hslots k).2, hrun, hfault, ?_⟩
    exact ⟨read_resetMemory_font s.cfg.font, fun a hfont hprog => read_resetMemory_zero _ hfont (.inl hprog),
      fun k hk => read_resetMemory_image _ hk, fun a ha => read_resetMemory_zero _ (by omega) (.inr ha)⟩
  · exact ⟨_, deliver_reset_tooLong s (by omega), fun hfits => absurd hfits hlen, fun _ => ⟨rfl, rfl⟩⟩

/-- Settles O54: the load-error state is fault entry from the empty reset, and `start` is refused in it. -/
theorem oversizedImageIsLoadError : Obligations.OversizedImageIsLoadError := by
  intro s image hlen
  have hrefused := hostStart_refused ((resetWith [] s).faultEntry loadErrorRecord) nofun
  exact ⟨_, _, deliver_reset_tooLong s hlen, deliver_reset_fits s (Nat.zero_le _), rfl,
    _, congrArg Host.Outcome.next hrefused, rfl⟩

/-! ## From reset to the first instruction (R233) -/

/-- The state after a reset with an image, then a start, with the rest of the schedule. -/
def State.started (s : State) (image : List Byte) (rest : List Event) : State :=
  { resetWith image s with run := .running, schedule := rest }

theorem run_reset_start {s : State} {image : List Byte} {rest : List Event}
    (hs : s.schedule = .reset image :: .start :: rest) (hlen : image.length ≤ 3584) :
    core.run 2 s = .next (s.started image rest) := by
  have hreset : step s = .next (resetWith image { s with schedule := .start :: rest }) :=
    (step_cons s _ _ hs).trans (deliver_reset_fits _ hlen)
  have hstart : step (resetWith image { s with schedule := .start :: rest }) = .next (s.started image rest) :=
    (step_cons _ .start rest rfl).trans (congrArg Host.Outcome.next (hostStart_idle _ rfl))
  rw [core_run_next 1 s _ hreset, core_run_next 0 _ _ hstart, core_run_zero]

/-- The first word fetched is the image's first two bytes. -/
theorem wordAtPc_started (s : State) (hi lo : Byte) (image : List Byte) (rest : List Event) :
    wordAtPc (s.started (hi :: lo :: image) rest) = wordOfBytes hi lo := by
  have hhi := read_resetMemory_image (image := hi :: lo :: image) s.cfg.font (k := 0) (by simp)
  have hlo := read_resetMemory_image (image := hi :: lo :: image) s.cfg.font (k := 1) (by simp)
  exact congrArg₂ wordOfBytes hhi hlo

/-- Settles O56: the reset puts the image at 0x200 and `PC` there, the start makes the core run, and the grant executes the
word at `PC`. -/
theorem startedProgramRunsFrom0x200 : Obligations.StartedProgramRunsFrom0x200 := by
  intro s image hi lo i rest hs hlen hdec
  have hstep := step_cons (s.started (hi :: lo :: image) (.cpu :: rest)) .cpu rest rfl
  have hexec := cpuStep_eq_exec (s := s.started (hi :: lo :: image) rest) rfl (by decide : 0x200 ≤ 0xFFE)
    (by rwa [wordAtPc_started])
  exact ⟨_, run_reset_start hs hlen, rfl, rfl, hstep.trans hexec⟩

end Sys2Proof.Machine
